-- ==== Sys2Proof/Word.lean ====
section
/-! DEFINITION. The word types of the block and the plainest bit-sequence notation of spec/00_scope.md R10. -/

namespace Sys2Proof

/-- One 16-bit command word, the only input format of the block (30_encoding.md R53). -/
abbrev CmdWord := BitVec 16

/-- A bit vector, buffer or signal as a finite sequence, element 0 first in time (00_scope.md R10 (b)). -/
abbrev Bits := List Bool

/-- `zeros(k)` of 00_scope.md R10 (c). -/
def zeros (k : Nat) : Bits := List.replicate k false

/-- `rep(k, P)` of 00_scope.md R10 (c): `P` concatenated `k` times. -/
def rep (k : Nat) (p : Bits) : Bits := (List.replicate k p).flatten

/-- How many samples of a bit sequence are 1. -/
def ones (b : Bits) : Nat := b.count true

end Sys2Proof
end

