-- ==== Sys2Proof/Syntax.lean ====
section
/-! DEFINITION. The commands of the block as syntax: one constructor per row of spec/opcode_table.json, and the
enumerations its operands name (30_encoding.md R61 to R63). -/

namespace Sys2Proof

/-- The four ink channels (00_scope.md R13, 30_encoding.md R63): black, cyan, magenta, yellow. -/
inductive Channel where
  | k | c | m | y
  deriving DecidableEq, Repr

/-- The six timing signals, in the order of 00_scope.md R12. -/
inductive Signal where
  | nc | ch | lat | ck | sibl | sicl
  deriving DecidableEq, Repr

/-- The droplet sizes, the recognised codes 0, 1, 2 of 30_encoding.md R61. -/
inductive Droplet where
  | small | medium | large
  deriving DecidableEq, Repr

/-- The quality profiles, the recognised codes 0 to 5 of 30_encoding.md R62. -/
inductive Quality where
  | economy | jeff | all | vsd1 | vsd2 | vsd3
  deriving DecidableEq, Repr

/-- The sequencing strategies, codes 0 and 1 of 30_encoding.md R63. -/
inductive Strategy where
  | a | b
  deriving DecidableEq, Repr

/-- The nine host commands (30_encoding.md R56). Operands that the encoding can carry and the command itself
rejects stay raw codes: the nozzle number, `sz`, `q` and `k` (R55, R59). -/
inductive Instr where
  /-- `NOP`, 45_commands.md R132. -/
  | nop
  /-- `CLR`, R133. -/
  | clr
  /-- `SEL ch, n`, R134. -/
  | sel (ch : Channel) (n : BitVec 8)
  /-- `SIZE sz`, R136. -/
  | size (sz : BitVec 2)
  /-- `QUAL q`, R137. -/
  | qual (q : BitVec 3)
  /-- `OFFS s, k`, R138; `s` is 0 to 5 in a well-formed command (30_encoding.md R58 (c)). -/
  | offs (s : BitVec 3) (k : BitVec 8)
  /-- `STRAT m`, R141. -/
  | strat (m : Strategy)
  /-- `START`, R143. -/
  | start
  /-- `ACK`, R144. -/
  | ack
  deriving DecidableEq, Repr

end Sys2Proof
end

