-- ==== Sys2Proof/WellFormed.lean ====
section
/-! DEFINITION. Which commands the encoding admits: the one constraint of spec/opcode_table.json, `s <= 5` on OFFS. -/

namespace Sys2Proof

/-- OFFS names a signal that exists: 30_encoding.md R58 (c), "there is no seventh or eighth signal". -/
def signalFieldOk (s : BitVec 3) : Bool := s.toNat ≤ 5

/-- A well-formed command: every operand value that some legal word carries. -/
def Instr.wf : Instr → Bool
  | .nop => true
  | .clr => true
  | .sel _ _ => true
  | .size _ => true
  | .qual _ => true
  | .offs s _ => signalFieldOk s
  | .strat _ => true
  | .start => true
  | .ack => true

end Sys2Proof
end

