-- ==== Sys2Proof/Decode.lean ====
section
/-! DEFINITION. The encodings of spec/30_encoding.md: the enumerations' codes (R61 to R63), the opcode rows (R56), the
decoder (R60), total on every 16-bit word, and the encoder. -/

namespace Sys2Proof

/-! ## Codes of the enumerations -/

/-- Channel codes (R63). -/
def Channel.code : Channel → BitVec 2
  | .k => 0
  | .c => 1
  | .m => 2
  | .y => 3

/-- The channel of a code; all four codes name one (R63). -/
def Channel.ofCode (c : BitVec 2) : Channel :=
  match c.toNat with
  | 0 => .k
  | 1 => .c
  | 2 => .m
  | _ => .y

/-- Signal indices (R63, 00_scope.md R12). -/
def Signal.code : Signal → BitVec 3
  | .nc => 0
  | .ch => 1
  | .lat => 2
  | .ck => 3
  | .sibl => 4
  | .sicl => 5

/-- Droplet size codes (R61). -/
def Droplet.code : Droplet → BitVec 2
  | .small => 0
  | .medium => 1
  | .large => 2

/-- Quality profile codes (R62). -/
def Quality.code : Quality → BitVec 3
  | .economy => 0
  | .jeff => 1
  | .all => 2
  | .vsd1 => 3
  | .vsd2 => 4
  | .vsd3 => 5

/-- Strategy codes (R63). -/
def Strategy.code : Strategy → BitVec 1
  | .a => 0
  | .b => 1

/-- The strategy of a code; both codes name one (R63). -/
def Strategy.ofCode (m : BitVec 1) : Strategy :=
  match m.toNat with
  | 0 => .a
  | _ => .b

/-! ## The opcode table -/

/-- One row of the opcode map (R56): a word `c` selects it when `(c &&& mask) = want`. -/
structure OpcodeRow where
  mnemonic : String
  want : CmdWord
  mask : CmdWord
  deriving DecidableEq, Repr

/-- The nine rows of R56, in the table's order. -/
def opcodeRows : List OpcodeRow :=
  [⟨"NOP", 0x0000#16, 0xFFFF#16⟩, ⟨"CLR", 0x1000#16, 0xFFFF#16⟩, ⟨"SEL", 0x2000#16, 0xFC00#16⟩,
   ⟨"SIZE", 0x3000#16, 0xFFFC#16⟩, ⟨"QUAL", 0x4000#16, 0xFFF8#16⟩, ⟨"OFFS", 0x5000#16, 0xF800#16⟩,
   ⟨"STRAT", 0x6000#16, 0xFFFE#16⟩, ⟨"START", 0x7000#16, 0xFFFF#16⟩, ⟨"ACK", 0x8000#16, 0xFFFF#16⟩]

/-- The word `c` selects the row (R56). -/
def OpcodeRow.selects (r : OpcodeRow) (c : CmdWord) : Bool := c &&& r.mask == r.want

/-- The mnemonic of a command (R56). -/
def Instr.mnemonic : Instr → String
  | .nop => "NOP"
  | .clr => "CLR"
  | .sel _ _ => "SEL"
  | .size _ => "SIZE"
  | .qual _ => "QUAL"
  | .offs _ _ => "OFFS"
  | .strat _ => "STRAT"
  | .start => "START"
  | .ack => "ACK"

/-! ## The decoder -/

/-- `OP`, bits 15:12 (R54). -/
def opField (c : CmdWord) : BitVec 4 := c.extractLsb' 12 4

/-- `A`, bits 11:8 (R54). -/
def aField (c : CmdWord) : BitVec 4 := c.extractLsb' 8 4

/-- `IMM`, bits 7:0 (R54). -/
def immField (c : CmdWord) : BitVec 8 := c.extractLsb' 0 8

/-- `decode` of R60; `none` is ILLEGAL. Reserved bits must be zero (R57) and OFFS names signals 0 to 5 (R58 (c)). -/
def decode (c : CmdWord) : Option Instr :=
  let a := aField c
  let imm := immField c
  match (opField c).toNat with
  | 0 => if c.extractLsb' 0 12 = 0 then some .nop else none
  | 1 => if c.extractLsb' 0 12 = 0 then some .clr else none
  | 2 => if a.extractLsb' 2 2 = 0 then some (.sel (Channel.ofCode (a.extractLsb' 0 2)) imm) else none
  | 3 => if a = 0 ∧ imm.extractLsb' 2 6 = 0 then some (.size (imm.extractLsb' 0 2)) else none
  | 4 => if a = 0 ∧ imm.extractLsb' 3 5 = 0 then some (.qual (imm.extractLsb' 0 3)) else none
  | 5 => if a.extractLsb' 3 1 = 0 ∧ signalFieldOk (a.extractLsb' 0 3) then some (.offs (a.extractLsb' 0 3) imm) else none
  | 6 => if a = 0 ∧ imm.extractLsb' 1 7 = 0 then some (.strat (Strategy.ofCode (imm.extractLsb' 0 1))) else none
  | 7 => if c.extractLsb' 0 12 = 0 then some .start else none
  | 8 => if c.extractLsb' 0 12 = 0 then some .ack else none
  | _ => none

/-! ## The encoder -/

/-- Format `C` of R54: `OP` in bits 15:12, `A` in 11:8, `IMM` in 7:0. -/
def formatC (op a : BitVec 4) (imm : BitVec 8) : CmdWord :=
  op.setWidth 16 <<< 12 ||| a.setWidth 16 <<< 8 ||| imm.setWidth 16

/-- The word of a command, from the `line | word` table of R66. -/
def encode : Instr → CmdWord
  | .nop => formatC 0 0 0
  | .clr => formatC 1 0 0
  | .sel ch n => formatC 2 (ch.code.setWidth 4) n
  | .size sz => formatC 3 0 (sz.setWidth 8)
  | .qual q => formatC 4 0 (q.setWidth 8)
  | .offs s k => formatC 5 (s.setWidth 4) k
  | .strat m => formatC 6 0 (m.code.setWidth 8)
  | .start => formatC 7 0 0
  | .ack => formatC 8 0 0

/-! ## The table's numbering -/

/-- The command in an instruction of `nbits` bits whose number is `w`, bits counted as spec/opcode_table.json counts
them. Every row has 16 bits, so every bit above the low 16 must be absent or zero (R53). -/
def decodeTableWord (nbits w : Nat) : Option Instr :=
  if w % 2 ^ nbits < 2 ^ 16 then decode (BitVec.ofNat 16 (w % 2 ^ nbits)) else none

end Sys2Proof
end

