-- ==== Sys2Proof/Config.lean ====
section
/-! DEFINITION. The configuration record `CFG` of spec/00_scope.md R7: its FIXED fields as numbers; its OPEN tables as a
bodyless constant of which only `CFG_WF` (R8) is known; its two fields that have a default as parameters of the block, with
the spec's defaults beside them; and the check `CFG_WF` itself. -/

namespace Sys2Proof

/-- The six offset registers `OFF[0..5]`, and any six offsets (10_state.md R21). Plain naturals: the block "never
computes with an offset other than to shift by it" (log 8). -/
structure Offsets where
  nc : Nat
  ch : Nat
  lat : Nat
  ck : Nat
  sibl : Nat
  sicl : Nat
  deriving DecidableEq, Repr

/-- Every one of the six offsets is a bit position of a `w`-bit word. -/
def Offsets.fits (w : Nat) (o : Offsets) : Bool :=
  o.nc < w && o.ch < w && o.lat < w && o.ck < w && o.sibl < w && o.sicl < w

/-- The part of `CFG_WF` that is about `WORD_W` and `OFF_RESET` (R7, R8): `6 <= WORD_W <= 256`, and every reset offset is a
bit of the word. -/
def paramsWf (wordW : Nat) (offReset : Offsets) : Bool := 6 ≤ wordW && wordW ≤ 256 && offReset.fits wordW

/-- The two fields of `CFG` that R7 leaves open with a default: the model takes them as an argument, and every block has its
own (log 3, log 4). They come with the check that returned true, as R8 asks: there is no block whose parameters fail it. -/
@[ext] structure Params where
  /-- `WORD_W`, the width of a control word in bits. -/
  wordW : Nat
  /-- `OFF_RESET`, the reset values of the six offset registers. -/
  offReset : Offsets
  /-- the check of R8 returned true. -/
  wf : paramsWf wordW offReset = true
  deriving DecidableEq, Repr

/-- The OPEN tables of R7: the pair bases of the four channels, by nozzle number, and the quality patterns.
The entry of `qrom` for economy is not used: that pattern is FIXED (`economyPattern`). -/
structure Tables where
  kmap : Nat → Nat
  cmap : Nat → Nat
  mmap : Nat → Nat
  ymap : Nat → Nat
  qrom : Quality → BitVec 64
  deriving Inhabited

namespace Config

/-- `NK`: black nozzles are numbered 1 to 90 (R7). -/
def nk : Nat := 90

/-- `NC`: each colour channel's nozzles are numbered 1 to 30 (R7). -/
def nColour : Nat := 30

/-- `SELSLOTS` (R7). -/
def selSlots : Nat := 256

/-- `QSLOTS` (R7). -/
def qSlots : Nat := 64

/-- `PAT`, the clock sub-pattern (R7, 30_encoding.md R69). -/
def pat : Bits := [false, true, true, false]

/-- `BURST1` and `BURST2` (R7). -/
def burst : Nat := 64

/-- `BURSTQ` (R7). -/
def burstQ : Nat := 16

/-- `WAIT` (R7). -/
def wait : Nat := 230

/-- `L`, control words per run (R7, 43_phase_sequencer.md R108). -/
def runLength : Nat := 1038

/-- The defaults of R7: `WORD_W` 32 (D9) and `OFF_RESET` (0,1,2,3,4,5) (D10). -/
def defaults : Params := ⟨32, ⟨0, 1, 2, 3, 4, 5⟩, by decide⟩

/-- `COMPAT_A_CTL_ZERO`, FIXED true (R7; 93_implementation_defined.md U8: false has no defined behaviour). -/
def compatACtlZero : Bool := true

/-- `HAS_STRATEGY_B`, FIXED false (R7, D2). -/
def hasStrategyB : Bool := false

/-- `QROM[0]`, FIXED: bit i is slot i (R7, 42_quality_table.md R89). -/
def economyPattern : BitVec 64 := 0x03FC030000000000#64

end Config

/-- `QUALSEQ` at a profile, as a pattern (42_quality_table.md R88): economy is FIXED, the other five are OPEN. -/
def Tables.pattern (tb : Tables) : Quality → BitVec 64
  | .economy => Config.economyPattern
  | .jeff => tb.qrom .jeff
  | .all => tb.qrom .all
  | .vsd1 => tb.qrom .vsd1
  | .vsd2 => tb.qrom .vsd2
  | .vsd3 => tb.qrom .vsd3

/-- The pair base of a nozzle: the lower of the two slots it sets (40_slot_mapping.md R71). -/
def Tables.pairBase (tb : Tables) : Channel → Nat → Nat
  | .k => tb.kmap
  | .c => tb.cmap
  | .m => tb.mmap
  | .y => tb.ymap

/-- The nozzle numbers `1 .. max` of a channel with `max` nozzles. -/
def nozzlesUpTo (max : Nat) : List Nat := (List.range max).map (· + 1)

/-- The 90 (channel, nozzle) pairs of the three colour channels. -/
def colourNozzles : List (Channel × Nat) :=
  [Channel.c, Channel.m, Channel.y].flatMap fun ch => (nozzlesUpTo Config.nColour).map fun n => (ch, n)

/-- Two pair bases at distance 2 or more: their slot pairs are disjoint (R77 W3, W5). -/
def apart (p q : Nat) : Bool := p + 2 ≤ q || q + 2 ≤ p

/-- Every set slot has a set neighbour (42_quality_table.md R90). -/
def pairsOnly (p : BitVec 64) : Bool :=
  (List.range Config.qSlots).all fun i =>
    !p.getLsbD i || (0 < i && p.getLsbD (i - 1)) || p.getLsbD (i + 1)

/-- The black map's constraints W1, W2 and W3 of 40_slot_mapping.md R77. -/
def Tables.wfBlack (tb : Tables) : Bool :=
  (nozzlesUpTo Config.nk).all fun n =>
    tb.kmap n ≤ 254 && tb.kmap n % 2 == 0 &&
      (nozzlesUpTo Config.nk).all fun n' => n == n' || apart (tb.kmap n) (tb.kmap n')

/-- The colour maps' constraints W4 and W5 of 40_slot_mapping.md R77. -/
def Tables.wfColour (tb : Tables) : Bool :=
  colourNozzles.all fun p =>
    tb.pairBase p.1 p.2 ≤ 254 &&
      colourNozzles.all fun q => p == q || apart (tb.pairBase p.1 p.2) (tb.pairBase q.1 q.2)

/-- The quality patterns' constraint (42_quality_table.md R90). -/
def Tables.wfQuality (tb : Tables) : Bool :=
  [Quality.economy, .jeff, .all, .vsd1, .vsd2, .vsd3].all fun q => pairsOnly (tb.pattern q)

/-- The tables' part of `CFG_WF`. -/
def Tables.wf (tb : Tables) : Bool := tb.wfBlack && tb.wfColour && tb.wfQuality

/-- `CFG_WF(CFG)` of 00_scope.md R8, for a configuration's tables, word width and reset offsets. -/
def cfgWf (tb : Tables) (wordW : Nat) (offReset : Offsets) : Bool := tb.wf && paramsWf wordW offReset

/-- The parameters of the block that a configuration makes, or none: "a configuration that fails the check is refused, not
run" (00_scope.md R8; 93_implementation_defined.md U4: "no model is instantiated with it"). -/
def configure (tb : Tables) (wordW : Nat) (offReset : Offsets) : Option Params :=
  if h : cfgWf tb wordW offReset = true then some ⟨wordW, offReset, (Bool.and_eq_true_iff.1 h).2⟩ else none

/-- `CFG_EX` of 40_slot_mapping.md R79: the spec's example mapping. It is NOT the hardware's. The five open patterns
are taken empty, which R90 admits. -/
def exTables : Tables where
  kmap n := if n ≤ 30 then 6 * (n - 1) else if n ≤ 60 then 6 * (n - 31) + 2 else 6 * (n - 61) + 4
  cmap n := 2 * (n - 1)
  mmap n := 64 + 2 * (n - 1)
  ymap n := 128 + 2 * (n - 1)
  qrom _ := 0

namespace Config

/-- The OPEN tables before the check: any value at all, nothing is known of it (log 5; D6, D7). -/
opaque openTables : Tables

/-- The block's tables. "A configuration that fails the check is refused, not run" (R8): so that no configuration
failing `CFG_WF` is a value of this constant, an ill-formed `openTables` is replaced by a well-formed one (log 5).
Nothing but `CFG_WF` can be proved of it. -/
def tables : Tables := if openTables.wf then openTables else exTables

end Config

end Sys2Proof
end

