-- ==== Sys2Proof/Machine/State.lean ====
section
/-! DEFINITION. The architectural state of spec/10_state.md R16, with the outside agents' inputs beside it as plain data
(log 1), the reasons a step can stop, and the state after reset (R32). -/

namespace Sys2Proof.Machine

/-- `ST` (R24). The code 3 is never held and is not representable (log 6). -/
inductive RunState where
  /-- 0: accepting commands, no run in progress. -/
  | idle
  /-- 1: emitting the words of a run; commands are held. -/
  | run
  /-- 2: an error was raised and not yet acknowledged. -/
  | error
  deriving DecidableEq, Repr

/-- `ERR` (R26) and the errors of 60_exceptions.md R148, in code order 0 to 7. -/
inductive ErrCode where
  | none
  | cfgQuality
  | cfgLength
  | valNozzle
  | cfgSize
  | cfgOffset
  | cfgStrategy
  | illegalCmd
  deriving DecidableEq, Repr

/-- The input ports' values at one clock edge (R35), except the word on `cmd`, which is the first of `hostCmds`. -/
structure Edge where
  /-- `rst`. -/
  rst : Bool
  /-- the host offers its next word, if it has one: `cmd_valid`. -/
  offer : Bool
  /-- `w_ready`. -/
  wReady : Bool
  deriving DecidableEq, Repr

/-- One word the sink accepted, with the `w_last` that accompanied it (44_word_packer.md R124). -/
structure Delivered where
  /-- the control word, an unsigned integer of the block's `WORD_W` bits (30_encoding.md R64). -/
  word : Nat
  /-- `w_last`. -/
  last : Bool
  deriving DecidableEq, Repr

/-- The whole architectural state (R16), and after it the model's own fields: the block's parameters, which no step changes,
and the host and the sink. -/
structure State where
  /-- `NSET[K]` (R17): bit n-1 is nozzle n, n = 1 .. 90. -/
  nsetK : BitVec 90
  /-- `NSET[C]` (R18): bit n-1 is nozzle n, n = 1 .. 30. -/
  nsetC : BitVec 30
  /-- `NSET[M]` (R18). -/
  nsetM : BitVec 30
  /-- `NSET[Y]` (R18). -/
  nsetY : BitVec 30
  /-- `SIZE` (R19). -/
  size : Droplet
  /-- `QUAL` (R20). -/
  qual : Quality
  /-- `STRAT` (R23). -/
  strat : Strategy
  /-- `OFF[0..5]` (R21). -/
  off : Offsets
  /-- `T` (R22), this block's program counter. -/
  t : BitVec 11
  /-- `ST` (R24). -/
  st : RunState
  /-- `DONE` (R25). -/
  done : Bool
  /-- `ERR` (R26). -/
  err : ErrCode
  /-- `ERRCMD` (R27). -/
  errcmd : CmdWord
  /-- The block this is a state of: its `WORD_W` and `OFF_RESET` (00_scope.md R7; log 3, log 4). -/
  params : Params
  /-- The host: the command words it has still to deliver, first one first (R15 (b); log 1). -/
  hostCmds : List CmdWord
  /-- The input ports at the clock edges to come, next one first (R35; log 1, log 2). -/
  edges : List Edge
  /-- The input ports at every clock edge after those: a sink may withhold `w_ready` for ever (93_implementation_defined.md
  U15; log 2). -/
  laterEdge : Edge
  /-- The sink: the words it has accepted, oldest first (R15 (c), R125; log 1). -/
  sinkWords : List Delivered
  deriving DecidableEq, Repr

/-- Faults: none. The block's errors are states of the block (60_exceptions.md R153), and no rule of the spec makes the
machine itself stop with a fault. -/
inductive Fault where
  deriving DecidableEq, Repr

/-- Why a step has no meaning. -/
inductive Refusal where
  /-- An arm of exec whose instruction has no meaning yet. Raised by no arm: every instruction has its meaning. Safe. -/
  | notModelled (mnemonic : String)
  /-- A run with `STRAT = B`. Raised by the clock edge in `RUN` when `STRAT` holds 1, which no run reaches
  (93_implementation_defined.md U7, U11: "refuse as start states"; 43_phase_sequencer.md R115). Safe. -/
  | strategyBRun
  /-- A run at a time index past the last word. Raised by the clock edge in `RUN` when `T >= L`, which no run reaches
  (93_implementation_defined.md U11, 10_state.md R33). Safe. -/
  | timeIndexPastEnd
  deriving DecidableEq, Repr

/-- An edge at which nothing outside stands in the way: no reset, the host offers, the sink is ready. -/
def Edge.clear : Edge := ⟨false, true, true⟩

/-- The state of a block right after reset (R32, 70_reset_and_hazards.md R167), with outside agents that have done nothing
yet. -/
def State.resetFor (p : Params) : State where
  nsetK := 0
  nsetC := 0
  nsetM := 0
  nsetY := 0
  size := .medium
  qual := .economy
  strat := .a
  off := p.offReset
  t := 0
  st := .idle
  done := false
  err := .none
  errcmd := 0
  params := p
  hostCmds := []
  edges := []
  laterEdge := Edge.clear
  sinkWords := []

/-- The state after reset of the block that has the spec's defaults (00_scope.md R7). -/
def State.reset : State := State.resetFor Config.defaults

end Sys2Proof.Machine
end

