-- ==== Sys2Proof/Machine/Ops.lean ====
section
/-! DEFINITION. The named operations over the registers and the buffers: nozzle sets, offsets, slots, starting a run,
error entry and the return from it (spec/60_exceptions.md R153, R158), reset, and the state check every command makes
first. -/

namespace Sys2Proof.Machine

/-! ## Nozzle sets -/

/-- `NSET[ch][n]` (10_state.md R17, R18). There is no element for `n = 0` or above the set's width. -/
def State.selected (s : State) (ch : Channel) (n : Nat) : Bool :=
  1 ≤ n &&
    match ch with
    | .k => s.nsetK.getLsbD (n - 1)
    | .c => s.nsetC.getLsbD (n - 1)
    | .m => s.nsetM.getLsbD (n - 1)
    | .y => s.nsetY.getLsbD (n - 1)

/-- `NSET[ch][n] <- 1` (45_commands.md R134), for a valid nozzle number. -/
def State.select (s : State) (ch : Channel) (n : Nat) : State :=
  match ch with
  | .k => { s with nsetK := s.nsetK ||| BitVec.twoPow 90 (n - 1) }
  | .c => { s with nsetC := s.nsetC ||| BitVec.twoPow 30 (n - 1) }
  | .m => { s with nsetM := s.nsetM ||| BitVec.twoPow 30 (n - 1) }
  | .y => { s with nsetY := s.nsetY ||| BitVec.twoPow 30 (n - 1) }

/-- All four sets empty (45_commands.md R133). -/
def State.clearSets (s : State) : State := { s with nsetK := 0, nsetC := 0, nsetM := 0, nsetY := 0 }

/-! ## Offset registers -/

/-- `OFF[g]` (10_state.md R21). -/
def offsetOf (o : Offsets) : Signal → Nat
  | .nc => o.nc
  | .ch => o.ch
  | .lat => o.lat
  | .ck => o.ck
  | .sibl => o.sibl
  | .sicl => o.sicl

/-- `OFF[g] <- k` (45_commands.md R138). -/
def State.setOffset (s : State) (g : Signal) (k : Nat) : State :=
  match g with
  | .nc => { s with off := { s.off with nc := k } }
  | .ch => { s with off := { s.off with ch := k } }
  | .lat => { s with off := { s.off with lat := k } }
  | .ck => { s with off := { s.off with ck := k } }
  | .sibl => { s with off := { s.off with sibl := k } }
  | .sicl => { s with off := { s.off with sicl := k } }

/-! ## Buffer spaces -/

/-- `MemRead(S, i, n)` of 00_scope.md R11 (b): `n` consecutive slots of a buffer from slot `i`. -/
def memRead (b : Bits) (i n : Nat) : Bits := (b.drop i).take n

/-- `MemWrite(S, i, n, v)` of 00_scope.md R11 (b), with `n` the length of `v`; in bounds always (20_memory.md R41). -/
def memWrite (b : Bits) (i : Nat) (v : Bits) : Bits := b.take i ++ v ++ b.drop (i + v.length)

/-! ## Run control -/

/-- `T <- 0 ; DONE <- 0 ; ST <- RUN` (45_commands.md R143). -/
def State.startRun (s : State) : State := { s with t := 0, done := false, st := .run }

/-! ## Error entry and return -/

/-- Error entry, `raise E(code)` for the command word `c` (60_exceptions.md R153): nothing else changes. -/
def raise (code : ErrCode) (c : CmdWord) (s : State) : State :=
  { s with err := code, errcmd := c, st := .error }

/-- The return from the error state, and all of ACK (60_exceptions.md R158, 45_commands.md R144). -/
def acknowledge (s : State) : State :=
  { s with err := .none, errcmd := 0, done := false, st := .idle }

/-! ## Reset -/

/-- Reset (70_reset_and_hazards.md R167): every register of the block takes its reset value. The host and the sink are
outside the block and are not reset (log 12), and the block stays the block it is. -/
def resetBlock (s : State) : State :=
  { State.resetFor s.params with
    hostCmds := s.hostCmds, edges := s.edges, laterEdge := s.laterEdge, sinkWords := s.sinkWords }

/-! ## The state check of a command -/

/-- The check that comes first (45_commands.md R130, R131; 60_exceptions.md R155): in `IDLE` the command does `done`; in
`ERROR` it is discarded and changes nothing (R145); in `RUN` it is held, so nothing happens (R129; log 10). -/
def whenIdle (s : State) (done : Host.Outcome State Fault Refusal) : Host.Outcome State Fault Refusal :=
  match s.st with
  | .idle => done
  | .run => .next s
  | .error => .next s

end Sys2Proof.Machine
end

