-- ==== Sys2Proof/Machine/Operands.lean ====
section
/-! DEFINITION. What each operand form admits (spec/45_commands.md R134, R136, R137, R138, R141) and the error an
inadmissible operand raises (spec/60_exceptions.md R148). -/

namespace Sys2Proof.Machine

/-- The largest nozzle number of a channel (R134): 90 for black, 30 for a colour. -/
def nozzleMax : Channel → Nat
  | .k => Config.nk
  | .c => Config.nColour
  | .m => Config.nColour
  | .y => Config.nColour

/-- `1 <= n <= max` (R134). -/
def nozzleValid (ch : Channel) (n : BitVec 8) : Bool := 1 ≤ n.toNat && n.toNat ≤ nozzleMax ch

/-- The droplet size a code names; code 3 names none (R136, 30_encoding.md R61). -/
def dropletOf (sz : BitVec 2) : Option Droplet :=
  match sz.toNat with
  | 0 => some .small
  | 1 => some .medium
  | 2 => some .large
  | _ => none

/-- The quality profile a code names; codes 6 and 7 name none (R137, 30_encoding.md R62). -/
def qualityOf (q : BitVec 3) : Option Quality :=
  match q.toNat with
  | 0 => some .economy
  | 1 => some .jeff
  | 2 => some .all
  | 3 => some .vsd1
  | 4 => some .vsd2
  | 5 => some .vsd3
  | _ => none

/-- The signal an index names; 6 and 7 name none (30_encoding.md R58 (c), R63). -/
def signalOf (s : BitVec 3) : Option Signal :=
  match s.toNat with
  | 0 => some .nc
  | 1 => some .ch
  | 2 => some .lat
  | 3 => some .ck
  | 4 => some .sibl
  | 5 => some .sicl
  | _ => none

/-- The offset fits a `w`-bit word (R138). -/
def offsetFits (w : Nat) (k : BitVec 8) : Bool := k.toNat < w

/-- The strategy is implemented (R141). -/
def strategyImplemented : Strategy → Bool
  | .a => true
  | .b => Config.hasStrategyB

end Sys2Proof.Machine
end

