-- ==== Sys2Proof/Machine/Arguments.lean ====
section
/-! DEFINITION. The commands that write the argument registers: CLR, SEL, SIZE, QUAL, OFFS, STRAT
(spec/45_commands.md R133 to R141). -/

namespace Sys2Proof.Machine

/-- `CLR` (R133). -/
def execClr (s : State) : Host.Outcome State Fault Refusal := whenIdle s (.next s.clearSets)

/-- `SEL ch, n` (R134). -/
def execSel (ch : Channel) (n : BitVec 8) (s : State) : Host.Outcome State Fault Refusal :=
  whenIdle s
    (if nozzleValid ch n then .next (s.select ch n.toNat)
     else .next (raise .valNozzle (encode (.sel ch n)) s))

/-- `SIZE sz` (R136). -/
def execSize (sz : BitVec 2) (s : State) : Host.Outcome State Fault Refusal :=
  whenIdle s
    (match dropletOf sz with
     | some z => .next { s with size := z }
     | none => .next (raise .cfgSize (encode (.size sz)) s))

/-- `QUAL q` (R137). -/
def execQual (q : BitVec 3) (s : State) : Host.Outcome State Fault Refusal :=
  whenIdle s
    (match qualityOf q with
     | some p => .next { s with qual := p }
     | none => .next (raise .cfgQuality (encode (.qual q)) s))

/-- `OFFS s, k` for a word width `w` (R138). An index that names no signal is an illegal word (30_encoding.md R58 (c));
the decoder never delivers one (log 11). -/
def offsAt (w : Nat) (sg : BitVec 3) (k : BitVec 8) (s : State) : Host.Outcome State Fault Refusal :=
  whenIdle s
    (match signalOf sg with
     | some g =>
       if offsetFits w k then .next (s.setOffset g k.toNat) else .next (raise .cfgOffset (encode (.offs sg k)) s)
     | none => .next (raise .illegalCmd (encode (.offs sg k)) s))

/-- `OFFS s, k` (R138), at the block's word width. -/
def execOffs (sg : BitVec 3) (k : BitVec 8) (s : State) : Host.Outcome State Fault Refusal :=
  offsAt s.params.wordW sg k s

/-- `STRAT m` (R141). -/
def execStrat (m : Strategy) (s : State) : Host.Outcome State Fault Refusal :=
  whenIdle s
    (if strategyImplemented m then .next { s with strat := m }
     else .next (raise .cfgStrategy (encode (.strat m)) s))

end Sys2Proof.Machine
end

