-- ==== Sys2Proof/Machine/Control.lean ====
section
/-! DEFINITION. The commands that write no argument register: NOP, START, ACK (spec/45_commands.md R132, R143, R144), and
the illegal word (spec/30_encoding.md R58). -/

namespace Sys2Proof.Machine

/-- `NOP` (R132). -/
def execNop (s : State) : Host.Outcome State Fault Refusal := whenIdle s (.next s)

/-- `START` (R143). -/
def execStart (s : State) : Host.Outcome State Fault Refusal := whenIdle s (.next s.startRun)

/-- `ACK` (R144): executed in `IDLE` and in `ERROR` (R130); held in `RUN` (R129; log 10). -/
def execAck (s : State) : Host.Outcome State Fault Refusal :=
  match s.st with
  | .idle => .next (acknowledge s)
  | .run => .next s
  | .error => .next (acknowledge s)

/-- A word that decodes to nothing (R130, 30_encoding.md R58): `ILLEGAL_CMD` in `IDLE`, discarded in `ERROR`. -/
def illegalWord (c : CmdWord) (s : State) : Host.Outcome State Fault Refusal :=
  whenIdle s (.next (raise .illegalCmd c s))

end Sys2Proof.Machine
end

