-- ==== Sys2Proof/Machine/Dispatch.lean ====
section
/-! DEFINITION. One arm per command, each a direct call of its meaning. -/

namespace Sys2Proof.Machine

def exec (i : Instr) (s : State) : Host.Outcome State Fault Refusal :=
  match i with
  | .nop => Sys2Proof.Machine.execNop s
  | .clr => Sys2Proof.Machine.execClr s
  | .sel ch n => Sys2Proof.Machine.execSel ch n s
  | .size sz => Sys2Proof.Machine.execSize sz s
  | .qual q => Sys2Proof.Machine.execQual q s
  | .offs sg k => Sys2Proof.Machine.execOffs sg k s
  | .strat m => Sys2Proof.Machine.execStrat m s
  | .start => Sys2Proof.Machine.execStart s
  | .ack => Sys2Proof.Machine.execAck s

end Sys2Proof.Machine
end

