-- ==== Sys2Proof/Machine/Flags.lean ====
section
/-! DEFINITION. The flags, the status view and the handshake outputs: pure functions of the state (spec/10_state.md R28,
R35). -/

namespace Sys2Proof.Machine

/-- `ST` codes (10_state.md R24, 30_encoding.md R68). -/
def RunState.code : RunState → BitVec 2
  | .idle => 0
  | .run => 1
  | .error => 2

/-- `ERR` codes (60_exceptions.md R148, 30_encoding.md R68). -/
def ErrCode.code : ErrCode → BitVec 3
  | .none => 0
  | .cfgQuality => 1
  | .cfgLength => 2
  | .valNozzle => 3
  | .cfgSize => 4
  | .cfgOffset => 5
  | .cfgStrategy => 6
  | .illegalCmd => 7

/-- The error classes (60_exceptions.md R147). -/
inductive ErrClass where
  | configurationError
  | validationError
  | illegalCommand
  deriving DecidableEq, Repr

/-- The class of an error (R148); no error has none. -/
def errClass : ErrCode → Option ErrClass
  | .none => none
  | .cfgQuality => some .configurationError
  | .cfgLength => some .configurationError
  | .valNozzle => some .validationError
  | .cfgSize => some .configurationError
  | .cfgOffset => some .configurationError
  | .cfgStrategy => some .configurationError
  | .illegalCmd => some .illegalCommand

/-- `status[31:0]` (R28): ERRCMD in 31:16, zeros in 15:6, ERR in 5:3, DONE in 2, ST in 1:0. -/
def statusView (s : State) : BitVec 32 :=
  s.errcmd.setWidth 32 <<< 16 ||| s.err.code.setWidth 32 <<< 3 ||| (BitVec.ofBool s.done).setWidth 32 <<< 2 |||
    s.st.code.setWidth 32

/-- `tindex[10:0]` (R28). -/
def tindex (s : State) : BitVec 11 := s.t

/-- `busy` (R28). -/
def busy (s : State) : Bool := s.st == .run

/-- `done` (R28). -/
def doneLine (s : State) : Bool := s.done

/-- `error` (R28). -/
def errorLine (s : State) : Bool := s.st == .error

/-- `cmd_ready` (R35), 0 while `rst = 1` (70_reset_and_hazards.md R167; log 13). -/
def cmdReady (rst : Bool) (s : State) : Bool := !rst && s.st != .run

/-- `w_valid` (R35), 0 while `rst = 1` (R167; log 13). -/
def wValid (rst : Bool) (s : State) : Bool := !rst && s.st == .run

/-- The time index is that of the run's last word (44_word_packer.md R124). -/
def atLastWord (s : State) : Bool := s.t.toNat == Config.runLength - 1

end Sys2Proof.Machine
end

