-- ==== Sys2Proof/Machine/QualityTable.lean ====
section
/-! DEFINITION. The quality sequence table, source component 4.3 (spec/42_quality_table.md). -/

namespace Sys2Proof.Machine

/-- `QBUF[i] = QROM[q][i]` (R88). -/
def qualSlot (tb : Tables) (q : Quality) (i : Nat) : Bool := (tb.pattern q).getLsbD i

/-- `QUALSEQ(q)`, the 64-slot buffer (R88). -/
def qualSeq (tb : Tables) (q : Quality) : Bits := (List.range Config.qSlots).map (qualSlot tb q)

/-- The pattern a profile's index list yields: `for j in J: MemWrite(QBUF, j, 2, [1,1])` (R88). -/
def qualFromList (js : List Nat) : Bits := js.foldl (fun b j => memWrite b j [true, true]) (zeros Config.qSlots)

end Sys2Proof.Machine
end

