-- ==== Sys2Proof/Machine/Mapping.lean ====
section
/-! DEFINITION. Nozzle-to-slot mapping, source component 4.1 (spec/40_slot_mapping.md). -/

namespace Sys2Proof.Machine

/-- `blackSlot(n) = KMAP(n) + 1` (R72), for `n` in 1..90. -/
def blackSlot (tb : Tables) (n : Nat) : Nat := tb.pairBase .k n + 1

/-- `cyanSlot(n) = CMAP(n)` (R74), for `n` in 1..30. -/
def cyanSlot (tb : Tables) (n : Nat) : Nat := tb.pairBase .c n

/-- `magentaSlot(n) = MMAP(n)` (R74). -/
def magentaSlot (tb : Tables) (n : Nat) : Nat := tb.pairBase .m n

/-- `yellowSlot(n) = YMAP(n)` (R74). -/
def yellowSlot (tb : Tables) (n : Nat) : Nat := tb.pairBase .y n

/-- The slot `i` belongs to the pair that nozzle `n` of the channel sets (R71, R72, R74). -/
def inPair (tb : Tables) (ch : Channel) (n i : Nat) : Bool := i == tb.pairBase ch n || i == tb.pairBase ch n + 1

end Sys2Proof.Machine
end

