-- ==== Sys2Proof/Machine/Selection.lean ====
section
/-! DEFINITION. The selection block builder, source component 4.2 (spec/41_selection_builder.md), first as the definition
by slots, then as the procedure, both of R81. -/

namespace Sys2Proof.Machine

/-- The selected nozzles of a channel, ascending. -/
def selectedNozzles (s : State) (ch : Channel) : List Nat :=
  (nozzlesUpTo (nozzleMax ch)).filter (s.selected ch)

/-- Slot `i` is set by some selected nozzle of the channel (R81). -/
def slotSetBy (tb : Tables) (s : State) (ch : Channel) (i : Nat) : Bool :=
  (selectedNozzles s ch).any fun n => inPair tb ch n i

/-- `SELK[i]` (R81). -/
def selK (tb : Tables) (s : State) (i : Nat) : Bool := slotSetBy tb s .k i

/-- `SELC[i]` (R81): the three colour channels share one buffer. -/
def selC (tb : Tables) (s : State) (i : Nat) : Bool :=
  slotSetBy tb s .c i || slotSetBy tb s .m i || slotSetBy tb s .y i

/-- The buffer `SELK`, 256 slots. -/
def bufK (tb : Tables) (s : State) : Bits := (List.range Config.selSlots).map (selK tb s)

/-- The buffer `SELC`, 256 slots. -/
def bufC (tb : Tables) (s : State) : Bits := (List.range Config.selSlots).map (selC tb s)

/-- `SELBUILD` (R81). -/
def selBuild (tb : Tables) (s : State) : Bits × Bits := (bufK tb s, bufC tb s)

/-- `for n in NSET[ch]: MemWrite(buf, base(n), 2, [1,1])`, one loop of the procedure of R81. -/
def markPairs (tb : Tables) (ch : Channel) (ns : List Nat) (buf : Bits) : Bits :=
  ns.foldl (fun b n => memWrite b (tb.pairBase ch n) [true, true]) buf

/-- The loop of the procedure of R81 over a channel and its nozzles: black marks `SELK`, a colour marks `SELC`. -/
def markLoop (tb : Tables) (bufs : Bits × Bits) (l : Channel × List Nat) : Bits × Bits :=
  match l.1 with
  | .k => (markPairs tb .k l.2 bufs.1, bufs.2)
  | .c => (bufs.1, markPairs tb .c l.2 bufs.2)
  | .m => (bufs.1, markPairs tb .m l.2 bufs.2)
  | .y => (bufs.1, markPairs tb .y l.2 bufs.2)

/-- The procedure of R81 with its loops in some order, from zeroed buffers. -/
def markLoops (tb : Tables) (ls : List (Channel × List Nat)) : Bits × Bits :=
  ls.foldl (markLoop tb) (zeros Config.selSlots, zeros Config.selSlots)

/-- `SELBUILD` as the procedure of R81, its loops in the order R81 writes them. -/
def selBuildProc (tb : Tables) (s : State) : Bits × Bits :=
  markLoops tb ([Channel.k, .c, .m, .y].map fun ch => (ch, selectedNozzles s ch))

end Sys2Proof.Machine
end

