-- ==== Sys2Proof/Machine/Phases.lean ====
section
/-! DEFINITION. The phase sequencer, source component 4.4, Strategy A (spec/43_phase_sequencer.md): the literal phase
program of R96 to R108, and the closed forms of R109 to R111, which the machine evaluates. -/

namespace Sys2Proof.Machine

/-! ## The size tests -/

/-- The first selection phase carries the nozzle data (R99): large and medium. -/
def firstPhase : Droplet → Bool
  | .small => false
  | .medium => true
  | .large => true

/-- The second selection phase carries the nozzle data (R102): large and small. -/
def secondPhase : Droplet → Bool
  | .small => true
  | .medium => false
  | .large => true

/-- `d` of R109, `e` of R99: 1 for small, else 0. The extra clock sample of the zero-fill branch. -/
def extraSample : Droplet → Nat
  | .small => 1
  | .medium => 0
  | .large => 0

/-! ## The phase program, literally -/

/-- `S1K`, `S1C` of R99. -/
def firstSelection (z : Droplet) (sel : Bits) : Bits := if firstPhase z then sel else zeros Config.selSlots

/-- `S2K`, `S2C` of R102. -/
def secondSelection (z : Droplet) (sel : Bits) : Bits := if secondPhase z then sel else zeros Config.selSlots

/-- `CKraw` of R96. -/
def ckRaw (z : Droplet) : Bits :=
  rep Config.burst Config.pat ++ zeros (extraSample z) ++ zeros Config.wait ++ rep Config.burst Config.pat ++
    zeros Config.wait ++ rep Config.burstQ Config.pat ++ zeros 1

/-- `SIBLraw`, `SICLraw` of R96, by the selection buffer of the line. -/
def serialRaw (z : Droplet) (sel qbuf : Bits) : Bits :=
  firstSelection z sel ++ zeros Config.wait ++ secondSelection z sel ++ zeros Config.wait ++ qbuf ++ zeros 2

/-- Zero-fill at the end to the common length `L` (R108). -/
def zeroFill (b : Bits) : Bits := b ++ zeros (Config.runLength - b.length)

/-- The six finished lines, in the signal order of 00_scope.md R12. -/
structure Lines where
  nc : Bits
  ch : Bits
  lat : Bits
  ck : Bits
  sibl : Bits
  sicl : Bits
  deriving DecidableEq, Repr

/-- `SEQA` (R95): the finished lines of R96, R106 and R108. -/
def seqA (z : Droplet) (selk selc qbuf : Bits) : Lines where
  nc := zeroFill []
  ch := zeroFill []
  lat := zeroFill []
  ck := zeroFill (ckRaw z)
  sibl := zeroFill (serialRaw z selk qbuf)
  sicl := zeroFill (serialRaw z selc qbuf)

/-! ## The same content as functions of the time index -/

/-- `PAT[k mod 4]` (30_encoding.md R69). -/
def patAt (k : Nat) : Bool := Config.pat.getD (k % 4) false

/-- `CK(t)` (R111). -/
def clockLine (z : Droplet) (t : Nat) : Bool :=
  if t < 256 then patAt t
  else if 486 + extraSample z ≤ t ∧ t < 742 + extraSample z then patAt (t - 486 - extraSample z)
  else if 972 + extraSample z ≤ t ∧ t < 1036 + extraSample z then patAt (t - 972 - extraSample z)
  else false

/-- `SIBL(t)`, `SICL(t)` (R110), by the slots of the line's selection buffer and of the quality buffer. -/
def serialLine (z : Droplet) (sel qbuf : Nat → Bool) (t : Nat) : Bool :=
  if t < 256 ∧ firstPhase z then sel t
  else if 486 ≤ t ∧ t < 742 ∧ secondPhase z then sel (t - 486)
  else if 972 ≤ t ∧ t < 1036 then qbuf (t - 972)
  else false

/-- The sample of a signal at time index `t` in a state (R106, R110, R111). The three control lines are zero because
`COMPAT_A_CTL_ZERO` is fixed true. -/
def sample (tb : Tables) (s : State) (g : Signal) (t : Nat) : Bool :=
  match g with
  | .nc => !Config.compatACtlZero
  | .ch => !Config.compatACtlZero
  | .lat => !Config.compatACtlZero
  | .ck => clockLine s.size t
  | .sibl => serialLine s.size (selK tb s) (qualSlot tb s.qual) t
  | .sicl => serialLine s.size (selC tb s) (qualSlot tb s.qual) t

/-- The six lines of a run on the argument registers of a state: `SEQA(SIZE, SELBUILD(NSET), QUALSEQ(QUAL))`
(45_commands.md R143). -/
def runLines (tb : Tables) (s : State) : Lines :=
  seqA s.size (selBuild tb s).1 (selBuild tb s).2 (qualSeq tb s.qual)

end Sys2Proof.Machine
end

