-- ==== Sys2Proof/Machine/Packer.lean ====
section
/-! DEFINITION. The word packer, source component 4.5, and the emit step (spec/44_word_packer.md). -/

namespace Sys2Proof.Machine

/-- One term of the packing OR: `b << k` in a `w`-bit word (R118). -/
def lane (w : Nat) (b : Bool) (k : Nat) : BitVec w := BitVec.ofNat w b.toNat <<< k

/-- One control word from six samples (R118, R122). -/
def packSample (w : Nat) (o : Offsets) (nc ch lat ck sibl sicl : Bool) : BitVec w :=
  lane w nc o.nc ||| lane w ch o.ch ||| lane w lat o.lat ||| lane w ck o.ck ||| lane w sibl o.sibl |||
    lane w sicl o.sicl

/-- All six vectors have one length (R119). -/
def sameLength (v : Lines) : Bool :=
  v.ch.length == v.nc.length && v.lat.length == v.nc.length && v.ck.length == v.nc.length &&
    v.sibl.length == v.nc.length && v.sicl.length == v.nc.length

/-- The packed word at index `t`. -/
def packAt (w : Nat) (v : Lines) (o : Offsets) (t : Nat) : BitVec w :=
  packSample w o (v.nc.getD t false) (v.ch.getD t false) (v.lat.getD t false) (v.ck.getD t false)
    (v.sibl.getD t false) (v.sicl.getD t false)

/-- `PACK` (R118): one word per index, or no word at all and `CFG_LENGTH` when the lengths differ (R119). -/
def pack (w : Nat) (v : Lines) (o : Offsets) : Except ErrCode (List (BitVec w)) :=
  if sameLength v then .ok ((List.range v.nc.length).map (packAt w v o)) else .error .cfgLength

/-- `WORD(t)` in a state (R122). -/
def wordAt (w : Nat) (tb : Tables) (s : State) (t : Nat) : BitVec w :=
  packSample w s.off (sample tb s .nc t) (sample tb s .ch t) (sample tb s .lat t) (sample tb s .ck t)
    (sample tb s .sibl t) (sample tb s .sicl t)

/-- `w_data`, exposed only while `w_valid = 1` (10_state.md R35, 93_implementation_defined.md U10; log 14). -/
def wData (rst : Bool) (s : State) : Option (BitVec s.params.wordW) :=
  if wValid rst s then some (wordAt s.params.wordW Config.tables s s.t.toNat) else none

/-- `w_last` (R35), exposed only while `w_valid = 1`. -/
def wLast (rst : Bool) (s : State) : Option Bool :=
  if wValid rst s then some (atLastWord s) else none

/-- The word and `w_last` the block offers in a state of a run (R124). -/
def offered (s : State) : Delivered := ⟨(wordAt s.params.wordW Config.tables s s.t.toNat).toNat, atLastWord s⟩

/-- The emit step (R124): deliver `WORD(T)`, then advance `T` or end the run. -/
def emitStep (s : State) : State :=
  if atLastWord s then
    { s with sinkWords := s.sinkWords ++ [offered s], t := BitVec.ofNat 11 Config.runLength, st := .idle, done := true }
  else
    { s with sinkWords := s.sinkWords ++ [offered s], t := s.t + 1 }

end Sys2Proof.Machine
end

