-- ==== Sys2Proof/Machine/Clock.lean ====
section
/-! DEFINITION. One clock edge: reset, a command step or an emit step, at most one of them (spec/10_state.md R36), from the
input ports' values at that edge. -/

namespace Sys2Proof.Machine

/-- The input ports at the next clock edge: the next of `edges`, and `laterEdge` once those are past (log 2). -/
def State.edge (s : State) : Edge := s.edges.headD s.laterEdge

/-- The clock edge is past. -/
def State.pastEdge (s : State) : State := { s with edges := s.edges.tail }

/-- The word the host offers at this edge, if `cmd_valid = 1` (R35, 45_commands.md R129). -/
def State.offeredCmd (s : State) : Option CmdWord := if s.edge.offer then s.hostCmds.head? else none

/-- The host's first word is consumed (45_commands.md R129). -/
def State.consumeCmd (s : State) : State := { s with hostCmds := s.hostCmds.tail }

/-- A command step on the word `c` (45_commands.md R130). -/
def commandStep (c : CmdWord) (s : State) : Host.Outcome State Fault Refusal :=
  match decode c with
  | some i => exec i s
  | none => illegalWord c s

/-- A clock edge while `ST = RUN` (44_word_packer.md R124, 70_reset_and_hazards.md R174): an emit step if the sink is ready,
else nothing. States no run reaches have no behaviour (93_implementation_defined.md U7, U11; log 9). -/
def runEdge (ready : Bool) (s : State) : Host.Outcome State Fault Refusal :=
  if s.strat = .b then .refused .strategyBRun
  else if Config.runLength ≤ s.t.toNat then .refused .timeIndexPastEnd
  else if ready then .next (emitStep s)
  else .next s

/-- A clock edge while `ST != RUN` (45_commands.md R129): a command step if a word is offered, else nothing. -/
def commandEdge (c : Option CmdWord) (s : State) : Host.Outcome State Fault Refusal :=
  match c with
  | some c => commandStep c s.consumeCmd
  | none => .next s

/-- One clock edge (10_state.md R36): reset has priority; then `ST` decides which step is enabled. -/
def clockEdge (s : State) : Host.Outcome State Fault Refusal :=
  if s.edge.rst then .next (resetBlock s.pastEdge)
  else
    match s.st with
    | .run => runEdge s.edge.wReady s.pastEdge
    | .idle => commandEdge s.offeredCmd s.pastEdge
    | .error => commandEdge s.offeredCmd s.pastEdge

/-- The state with the word `c` on the command port, about to be accepted (log 15): a clear edge and the word in front,
and a run that would hold the word taken as over. -/
def placeWord (s : State) (c : CmdWord) : State :=
  { s with
    hostCmds := c :: s.hostCmds
    edges := Edge.clear :: s.edges
    st := if s.st = .run then .idle else s.st }

end Sys2Proof.Machine
end

