-- ==== Sys2Proof/Machine/Step.lean ====
section
/-! DEFINITION. The step of the machine, one clock edge, and where it fetches its next command: the command port. -/

namespace Sys2Proof.Machine

/-- One step (spec/10_state.md R36). -/
def step (s : State) : Host.Outcome State Fault Refusal := clockEdge s

/-- `s` with the instruction on the command port, so that the very next step accepts it (log 15). -/
def State.withFetchWord (s : State) (nbits w : Nat) : State := placeWord s (BitVec.ofNat 16 (w % 2 ^ nbits))

end Sys2Proof.Machine
end

