-- ==== Sys2Proof/Machine/Assembler.lean ====
section
/-! DEFINITION. The assembler's spellings and the pseudo-commands (spec/30_encoding.md R66, R67; spec/45_commands.md R146).
Nothing of the machine's step depends on this file. -/

namespace Sys2Proof.Machine

/-! ## Spellings (R66) -/

/-- Channel spellings. -/
def spellChannel : Channel → String
  | .k => "K"
  | .c => "C"
  | .m => "M"
  | .y => "Y"

/-- Signal spellings. -/
def spellSignal : Signal → String
  | .nc => "NC"
  | .ch => "CH"
  | .lat => "LAT"
  | .ck => "CK"
  | .sibl => "SIBL"
  | .sicl => "SICL"

/-- Size spellings. -/
def spellDroplet : Droplet → String
  | .small => "small"
  | .medium => "medium"
  | .large => "large"

/-- Quality spellings. -/
def spellQuality : Quality → String
  | .economy => "economy"
  | .jeff => "jeff"
  | .all => "all"
  | .vsd1 => "VSD1"
  | .vsd2 => "VSD2"
  | .vsd3 => "VSD3"

/-- Strategy spellings. -/
def spellStrategy : Strategy → String
  | .a => "A"
  | .b => "B"

/-- The line of a command: a mnemonic, then its operands separated by commas; an operand that names nothing is written
as a number (R66). -/
def asmLine : Instr → String
  | .nop => "NOP"
  | .clr => "CLR"
  | .sel ch n => "SEL " ++ spellChannel ch ++ "," ++ toString n.toNat
  | .size sz => "SIZE " ++ ((dropletOf sz).map spellDroplet).getD (toString sz.toNat)
  | .qual q => "QUAL " ++ ((qualityOf q).map spellQuality).getD (toString q.toNat)
  | .offs s k => "OFFS " ++ ((signalOf s).map spellSignal).getD (toString s.toNat) ++ "," ++ toString k.toNat
  | .strat m => "STRAT " ++ spellStrategy m
  | .start => "START"
  | .ack => "ACK"

/-- Four hexadecimal digits. -/
def hex4 (c : CmdWord) : String :=
  String.ofList ([12, 8, 4, 0].map fun i => Nat.digitChar (c.toNat / 2 ^ i % 16) |>.toUpper)

/-- The line of any word: a word that decodes to nothing is written raw (R66). -/
def asmWord (c : CmdWord) : String :=
  match decode c with
  | some i => asmLine i
  | none => ".word 0x" ++ hex4 c

/-! ## Pseudo-commands (R67) -/

/-- `SELSET ch, {n1, n2, ...}`: one SEL per member, ascending; the empty set expands to nothing (R67 (a)). -/
def selSet (ch : Channel) (ns : List Nat) : List Instr :=
  ((List.range 256).filter fun n => ns.contains n).map fun n => .sel ch (BitVec.ofNat 8 n)

/-- `GEN quality=q, size=sz, K={..}, C={..}, M={..}, Y={..}` (R67 (b), R146). -/
def gen (q : BitVec 3) (sz : BitVec 2) (k c m y : List Nat) : List Instr :=
  [.clr] ++ selSet .k k ++ selSet .c c ++ selSet .m m ++ selSet .y y ++
    [.qual q, .size sz, .strat .a, .start]

/-- `OFFSALL k0,k1,k2,k3,k4,k5` (R67 (c)). -/
def offsAll (k0 k1 k2 k3 k4 k5 : BitVec 8) : List Instr :=
  [.offs Signal.nc.code k0, .offs Signal.ch.code k1, .offs Signal.lat.code k2, .offs Signal.ck.code k3,
   .offs Signal.sibl.code k4, .offs Signal.sicl.code k5]

end Sys2Proof.Machine
end

