-- ==== Sys2Proof/Safety.lean ====
section
/-! DEFINITION. What counts as a safe run, in the terms the statements use: the error a word raises, the invariant of every
reachable state (spec/10_state.md R33), reachability, and the word a step accepts. -/

namespace Sys2Proof.Machine

/-- The error a command raises when a block of word width `w` executes it, by its one operand check (60_exceptions.md R148,
R155). -/
def operandError (w : Nat) : Instr → Option ErrCode
  | .nop => none
  | .clr => none
  | .sel ch n => if nozzleValid ch n then none else some .valNozzle
  | .size sz => if sz = 3 then some .cfgSize else none
  | .qual q => if q.toNat > 5 then some .cfgQuality else none
  | .offs s k =>
    if s.toNat > 5 then some .illegalCmd else if w ≤ k.toNat then some .cfgOffset else none
  | .strat m => if m = .b then some .cfgStrategy else none
  | .start => none
  | .ack => none

/-- The error a word raises when a block of word width `w` accepts it in `IDLE`: decode first, then the operand check
(R155). -/
def errorOf (w : Nat) (c : CmdWord) : Option ErrCode :=
  match decode c with
  | some i => operandError w i
  | none => some .illegalCmd

/-- The invariant of every reachable state (10_state.md R33). What the types of State already say (SIZE, QUAL, ST codes, the
sets' ranges, parameters that pass `CFG_WF`) needs no clause. The last clause is R26, R27 and R144's "the zeros already in
ERR, ERRCMD". -/
abbrev LegalState (s : State) : Prop :=
  s.strat = .a ∧
  s.off.fits s.params.wordW = true ∧
  s.t.toNat ≤ Config.runLength ∧
  (s.st = .run → s.t.toNat < Config.runLength ∧ s.done = false ∧ s.err = .none) ∧
  (s.err ≠ .none ↔ s.st = .error) ∧
  (s.st = .error → errorOf s.params.wordW s.errcmd = some s.err) ∧
  (s.st ≠ .error → s.errcmd = 0)

/-- The reset state of a block, with a host and input ports that will do anything at all. -/
def resetWith (p : Params) (cmds : List CmdWord) (es : List Edge) (later : Edge) : State :=
  { State.resetFor p with hostCmds := cmds, edges := es, laterEdge := later }

/-- `n` steps, stopping at the first fault or refusal: `Host.Core.run` of this machine, over its own state type. -/
def runSteps : Nat → State → Host.Outcome State Fault Refusal
  | 0, s => .next s
  | n + 1, s =>
    match step s with
    | .next s' => runSteps n s'
    | .fault f => .fault f
    | .refused r => .refused r

/-- `s` is reached from reset, in some block and for some behaviour of the outside world. -/
def Reachable (s : State) : Prop :=
  ∃ n p cmds es later, runSteps n (resetWith p cmds es later) = .next s

/-- The word the next step accepts: offered, no reset, and `ST != RUN` (45_commands.md R129). -/
def accepts (s : State) : Option CmdWord :=
  if cmdReady s.edge.rst s then s.offeredCmd else none

/-- The next step executes the command `i` (45_commands.md R130): its word is accepted, in `IDLE`, or it is ACK. -/
def executes (s : State) (i : Instr) : Prop :=
  ∃ c, accepts s = some c ∧ decode c = some i ∧ (s.st = .idle ∨ i = .ack)

/-- The next step emits a word (44_word_packer.md R124): `w_valid = 1` and `w_ready = 1`. -/
def emits (s : State) : Prop := wValid s.edge.rst s = true ∧ s.edge.wReady = true

/-- The next step resets the block (70_reset_and_hazards.md R167). -/
def resets (s : State) : Prop := s.edge.rst = true

/-- The argument registers (00_scope.md R14): the inputs of the next run. -/
def sameArguments (s s' : State) : Prop :=
  s'.nsetK = s.nsetK ∧ s'.nsetC = s.nsetC ∧ s'.nsetM = s.nsetM ∧ s'.nsetY = s.nsetY ∧
  s'.size = s.size ∧ s'.qual = s.qual ∧ s'.strat = s.strat ∧ s'.off = s.off

/-- The words of a run on the argument registers of a state, each with its `w_last` (44_word_packer.md R125). -/
def runWords (s : State) : List Delivered :=
  (List.range Config.runLength).map fun t =>
    ⟨(wordAt s.params.wordW Config.tables s t).toNat, t == Config.runLength - 1⟩

/-- The outcome of the host delivering a command list first, one command at each of as many clear edges. -/
def deliver (is : List Instr) (s : State) : Host.Outcome State Fault Refusal :=
  runSteps is.length { s with
    hostCmds := is.map encode ++ s.hostCmds, edges := List.replicate is.length Edge.clear ++ s.edges }

end Sys2Proof.Machine
end

