-- ==== Sys2Proof/Certificates/Slice0/Obligations.lean ====
section
/-! DEFINITION. The statements about the model, from the numbered rules of spec/. -/

open Sys2Proof Sys2Proof.Machine

/-! ## Encoding -/

/-- Words written out from 30_encoding.md sections 3, 7 and 8 decode to the commands they stand for. -/
def Obligations.WordsOfTheTableDecode : Prop :=
  decode 0b0000000000000000#16 = some .nop ∧
  decode 0b0001000000000000#16 = some .clr ∧
  decode 0b0010000000111101#16 = some (.sel .k 61) ∧
  decode 0b0010001100011110#16 = some (.sel .y 30) ∧
  decode 0b0011000000000010#16 = some (.size 2) ∧
  decode 0b0100000000000101#16 = some (.qual 5) ∧
  decode 0b0101001100010001#16 = some (.offs 3 17) ∧
  decode 0b0110000000000001#16 = some (.strat .b) ∧
  decode 0b0111000000000000#16 = some .start ∧
  decode 0b1000000000000000#16 = some .ack ∧
  decode 0b0010010000000001#16 = none ∧
  decode 0b0101011000000000#16 = none

/-- Every well-formed command is what its word decodes to: no operand bit is dropped (30_encoding.md R54, R55, R60). -/
def Obligations.EncodeThenDecodeGivesBack : Prop :=
  ∀ i : Instr, i.wf = true → decode (encode i) = some i

/-- Every word that decodes is the one word of its command, and the command is well-formed (30_encoding.md R57: there are
no ignored bits). -/
def Obligations.DecodeThenEncodeGivesBack : Prop :=
  ∀ (c : CmdWord) (i : Instr), decode c = some i → encode i = c ∧ i.wf = true

/-- The illegal words are exactly those of R58 (a), (b) and (c), and what an illegal word does in `IDLE` and in `ERROR`. -/
def Obligations.IllegalWordsAreExactlyThese : Prop :=
  ∀ c : CmdWord,
    (decode c = none ↔
      9 ≤ (opField c).toNat ∨
      ((opField c = 0 ∨ opField c = 1 ∨ opField c = 7 ∨ opField c = 8) ∧ c.extractLsb' 0 12 ≠ 0) ∨
      (opField c = 2 ∧ c.extractLsb' 10 2 ≠ 0) ∨
      (opField c = 3 ∧ (aField c ≠ 0 ∨ c.extractLsb' 2 6 ≠ 0)) ∨
      (opField c = 4 ∧ (aField c ≠ 0 ∨ c.extractLsb' 3 5 ≠ 0)) ∨
      (opField c = 5 ∧ c.extractLsb' 11 1 ≠ 0) ∨
      (opField c = 6 ∧ (aField c ≠ 0 ∨ c.extractLsb' 1 7 ≠ 0)) ∨
      (opField c = 5 ∧ (c.extractLsb' 8 3 = 6 ∨ c.extractLsb' 8 3 = 7))) ∧
    (decode c = none → ∀ s : State,
      (s.st = .idle → commandStep c s = .next { s with err := .illegalCmd, errcmd := c, st := .error }) ∧
      (s.st = .error → commandStep c s = .next s))

/-- The rows of the opcode map are pairwise exclusive; a word decodes exactly when it selects a row (with `s <= 5` on the
OFFS row), and then to a command of that row (30_encoding.md section 3). -/
def Obligations.OpcodeRowsPartitionTheLegalWords : Prop :=
  (∀ (c : CmdWord) (r r' : OpcodeRow), r ∈ opcodeRows → r' ∈ opcodeRows →
    r.selects c = true → r'.selects c = true → r = r') ∧
  (∀ c : CmdWord, (decode c).isSome = true ↔
    ∃ r ∈ opcodeRows, r.selects c = true ∧ (r.mnemonic = "OFFS" → (c.extractLsb' 8 3).toNat ≤ 5)) ∧
  (∀ (c : CmdWord) (i : Instr), decode c = some i → ∃ r ∈ opcodeRows, r.selects c = true ∧ r.mnemonic = i.mnemonic)

/-! ## Reset and the invariant -/

/-- The values after reset, register by register (10_state.md R32), in every block, and no word offered. -/
def Obligations.ResetLeavesTheSpecValues : Prop :=
  ∀ (p : Params) (r : State), r = State.resetFor p →
    (∀ (ch : Channel) (n : Nat), r.selected ch n = false) ∧
    r.size.code = 1 ∧ r.qual.code = 0 ∧ r.strat.code = 0 ∧ r.off = p.offReset ∧
    r.t = 0 ∧ r.st.code = 0 ∧ r.done = false ∧ r.err.code = 0 ∧ r.errcmd = 0 ∧
    ∀ rst : Bool, wValid rst r = false

/-- When `rst = 1` at an edge, whatever the block was doing, every register takes its reset value and no command is
accepted and no word emitted (70_reset_and_hazards.md section 1). That the host's words and the sink's record stay is the
model's (log 12). -/
def Obligations.ResetHasPriority : Prop :=
  ∀ s : State, s.edge.rst = true →
    step s = .next { State.resetFor s.params with
      hostCmds := s.hostCmds, edges := s.edges.tail, laterEdge := s.laterEdge, sinkWords := s.sinkWords } ∧
    cmdReady s.edge.rst s = false ∧ wValid s.edge.rst s = false

/-- The reset state of every block meets the invariant, whatever the outside world will do. -/
def Obligations.ResetMeetsTheInvariant : Prop :=
  ∀ (p : Params) (cmds : List CmdWord) (es : List Edge) (later : Edge),
    LegalState (resetWith p cmds es later)

/-- Every step keeps the invariant of 10_state.md section 7, from every state that meets it. -/
def Obligations.StepKeepsTheInvariant : Prop :=
  ∀ s s' : State, LegalState s → step s = .next s' → LegalState s'

/-- Every state reached from reset, in any block and for any behaviour of the host and the sink, satisfies R33 clause by
clause. -/
def Obligations.ReachableStatesAreLegal : Prop :=
  ∀ s : State, Reachable s →
    s.size.code.toNat ≤ 2 ∧ s.qual.code.toNat ≤ 5 ∧ s.strat.code = 0 ∧
    (∀ g : Signal, offsetOf s.off g < s.params.wordW) ∧
    s.t.toNat ≤ Config.runLength ∧ s.st.code.toNat ≤ 2 ∧
    (s.st = .run → s.t.toNat < Config.runLength ∧ s.done = false ∧ s.err.code = 0) ∧
    (s.err.code ≠ 0 ↔ s.st = .error) ∧
    (s.st = .error → errorOf s.params.wordW s.errcmd = some s.err) ∧
    (∀ n : Nat, s.selected .k n = true → 1 ≤ n ∧ n ≤ 90) ∧
    (∀ (ch : Channel) (n : Nat), ch ≠ .k → s.selected ch n = true → 1 ≤ n ∧ n ≤ 30)

/-- In a state that meets the invariant the machine always takes a step: it never faults and never refuses. -/
def Obligations.LegalStatesAlwaysStep : Prop :=
  ∀ s : State, LegalState s → ∃ s' : State, step s = .next s'

/-- The machine stops only in a run with `STRAT = B` or past the last word, which are the states
93_implementation_defined.md U7 and U11 give no behaviour, and never with a fault (log 9). -/
def Obligations.StepStopsOnlyWhereTheSpecGivesNoBehaviour : Prop :=
  ∀ s : State,
    (∀ f : Fault, step s ≠ .fault f) ∧
    (∀ r : Refusal, step s = .refused r ↔
      s.edge.rst = false ∧ s.st = .run ∧
        ((r = .strategyBRun ∧ s.strat = .b) ∨
          (r = .timeIndexPastEnd ∧ s.strat = .a ∧ Config.runLength ≤ s.t.toNat)))

/-! ## The command step -/

/-- Nothing alters the block's parameters: not a step, reset included, and not a command (70_reset_and_hazards.md
section 5). -/
def Obligations.NothingAltersTheParameters : Prop :=
  (∀ s s' : State, step s = .next s' → s'.params = s.params) ∧
  (∀ (i : Instr) (s s' : State), exec i s = .next s' → s'.params = s.params)

/-- A command step is enabled when the host offers a word and `ST != RUN`, and consumes exactly that word
(45_commands.md, the command step). With no word offered none happens, and that such an edge changes nothing else is read
from the spec (log 16); in `RUN` the offered word waits, unconsumed, and that it does so at a reset edge too is log 12. -/
def Obligations.CommandStepConsumesOneWord : Prop :=
  (∀ (s : State) (c : CmdWord) (rest : List CmdWord),
    s.edge.rst = false → s.edge.offer = true → s.st ≠ .run → s.hostCmds = c :: rest →
      accepts s = some c ∧ step s = commandStep c { s with hostCmds := rest, edges := s.edges.tail } ∧
      ∀ s' : State, step s = .next s' → s'.hostCmds = rest) ∧
  (∀ s : State, s.edge.rst = false → s.st ≠ .run → (s.edge.offer = false ∨ s.hostCmds = []) →
    accepts s = none ∧ step s = .next { s with edges := s.edges.tail }) ∧
  (∀ s s' : State, s.st = .run → step s = .next s' → accepts s = none ∧ s'.hostCmds = s.hostCmds)

/-- A step whose offered word is that of a well-formed command is that command's meaning, on the state with the word
consumed and the edge past; and `withFetchWord`, the model's own interface for placing a word (log 15), places a command
so. -/
def Obligations.StepRunsTheDecodedCommand : Prop :=
  (∀ (s : State) (i : Instr) (rest : List CmdWord), i.wf = true →
    s.edge.rst = false → s.edge.offer = true → s.st ≠ .run → s.hostCmds = encode i :: rest →
      step s = exec i { s with hostCmds := rest, edges := s.edges.tail }) ∧
  (∀ (s : State) (i : Instr), i.wf = true → s.st ≠ .run →
      step (s.withFetchWord 16 (encode i).toNat) = exec i s)

/-- Outside `IDLE` no command but ACK in `ERROR` changes anything: discarded in `ERROR`, held in `RUN` (that `exec` answers
the same state in `RUN` is the model's, log 10). -/
def Obligations.CommandsOutsideIdleChangeNothing : Prop :=
  ∀ (i : Instr) (s : State),
    (s.st = .run → exec i s = .next s) ∧ (s.st = .error → i ≠ .ack → exec i s = .next s)

/-- NOP (45_commands.md R132). -/
def Obligations.NopChangesNothing : Prop :=
  (∀ s : State, s.st = .idle → exec .nop s = .next s) ∧
  encode .nop = 0x0000#16 ∧
  ∀ c : CmdWord, opField c = 0 → c ≠ 0 → decode c = none

/-- CLR (45_commands.md R133): the four sets become empty and nothing else changes. -/
def Obligations.ClrEmptiesTheSets : Prop :=
  ∀ s : State, s.st = .idle →
    exec .clr s = .next { s with nsetK := 0, nsetC := 0, nsetM := 0, nsetY := 0 } ∧
    encode .clr = 0x1000#16 ∧
    (∀ (ch : Channel) (n : Nat), (s.clearSets).selected ch n = false) ∧
    (s.nsetK = 0 → s.nsetC = 0 → s.nsetM = 0 → s.nsetY = 0 → exec .clr s = .next s)

/-- SEL (45_commands.md R134): a valid nozzle enters its set and nothing else changes; an invalid one raises VAL_NOZZLE. -/
def Obligations.SelAddsOneNozzleOrRaises : Prop :=
  ∀ (s : State) (ch : Channel) (n : BitVec 8), s.st = .idle →
    (1 ≤ n.toNat ∧ n.toNat ≤ (if ch = .k then 90 else 30) →
      ∃ s' : State, exec (.sel ch n) s = .next s' ∧
        (∀ (ch' : Channel) (m : Nat), s'.selected ch' m = (s.selected ch' m || (ch' == ch && m == n.toNat))) ∧
        s' = { s with nsetK := s'.nsetK, nsetC := s'.nsetC, nsetM := s'.nsetM, nsetY := s'.nsetY }) ∧
    (¬(1 ≤ n.toNat ∧ n.toNat ≤ (if ch = .k then 90 else 30)) →
      exec (.sel ch n) s = .next { s with
        err := .valNozzle, errcmd := BitVec.ofNat 16 (0x2000 + 256 * ch.code.toNat + n.toNat), st := .error }) ∧
    encode (.sel ch n) = BitVec.ofNat 16 (0x2000 + 256 * ch.code.toNat + n.toNat) ∧
    errClass .valNozzle = some .validationError

/-- SEL is idempotent and order-free, and no command removes one nozzle (45_commands.md R135). The words are delivered at
as many clear edges, which `deliver` puts in front of those to come, so nothing rests on the edges past the listed ones. -/
def Obligations.SelIsIdempotentAndOrderFree : Prop :=
  (∀ (s : State) (ch : Channel) (n : BitVec 8), s.st = .idle → s.selected ch n.toNat = true →
    exec (.sel ch n) s = .next s) ∧
  (∀ (s : State) (l l' : List (Channel × BitVec 8)), s.st = .idle →
    (∀ p ∈ l, nozzleValid p.1 p.2 = true) → l.Perm l' →
      ∃ s' : State, deliver (l.map fun p => .sel p.1 p.2) s = .next s' ∧
        deliver (l'.map fun p => .sel p.1 p.2) s = .next s') ∧
  (∀ (i : Instr) (s s' : State) (ch : Channel) (n : Nat), exec i s = .next s' →
    s.selected ch n = true → s'.selected ch n = true ∨ (i = .clr ∧ ∀ (ch' : Channel) (m : Nat), s'.selected ch' m = false))

/-- SIZE (45_commands.md R136). -/
def Obligations.SizeWritesOrRaises : Prop :=
  ∀ s : State, s.st = .idle →
    exec (.size 0) s = .next { s with size := .small } ∧
    exec (.size 1) s = .next { s with size := .medium } ∧
    exec (.size 2) s = .next { s with size := .large } ∧
    exec (.size 3) s = .next { s with err := .cfgSize, errcmd := 0x3003#16, st := .error } ∧
    (∀ sz : BitVec 2, encode (.size sz) = BitVec.ofNat 16 (0x3000 + sz.toNat)) ∧
    errClass .cfgSize = some .configurationError

/-- QUAL (45_commands.md R137). -/
def Obligations.QualWritesOrRaises : Prop :=
  ∀ (s : State) (q : BitVec 3), s.st = .idle →
    (∀ p : Quality, q = p.code → exec (.qual q) s = .next { s with qual := p }) ∧
    (q.toNat ≤ 5 → ∃ p : Quality, q = p.code) ∧
    (q.toNat > 5 → exec (.qual q) s = .next { s with
      err := .cfgQuality, errcmd := BitVec.ofNat 16 (0x4000 + q.toNat), st := .error }) ∧
    encode (.qual q) = BitVec.ofNat 16 (0x4000 + q.toNat) ∧ errClass .cfgQuality = some .configurationError

/-- OFFS (45_commands.md R138), at every word width: one offset register takes `k` and nothing else changes, or CFG_OFFSET;
the machine's OFFS is that at its block's width; an index 6 or 7 never decodes. -/
def Obligations.OffsWritesOrRaises : Prop :=
  (∀ (w : Nat) (s : State) (g : Signal) (k : BitVec 8), s.st = .idle →
    (k.toNat < w → ∃ s' : State, offsAt w g.code k s = .next s' ∧
      (∀ g' : Signal, offsetOf s'.off g' = if g' = g then k.toNat else offsetOf s.off g') ∧
      s' = { s with off := s'.off }) ∧
    (w ≤ k.toNat → offsAt w g.code k s = .next { s with
      err := .cfgOffset, errcmd := BitVec.ofNat 16 (0x5000 + 256 * g.code.toNat + k.toNat), st := .error }) ∧
    encode (.offs g.code k) = BitVec.ofNat 16 (0x5000 + 256 * g.code.toNat + k.toNat)) ∧
  errClass .cfgOffset = some .configurationError ∧
  (∀ (sg : BitVec 3) (k : BitVec 8) (s : State), exec (.offs sg k) s = offsAt s.params.wordW sg k s) ∧
  (∀ (s : State) (g : Signal) (k : BitVec 8), s.st = .idle → k.toNat < s.params.wordW →
    ∃ s' : State, exec (.offs g.code k) s = .next s' ∧ offsetOf s'.off g = k.toNat ∧ s' = { s with off := s'.off }) ∧
  (∀ c : CmdWord, opField c = 5 → 5 < (c.extractLsb' 8 3).toNat → decode c = none)

/-- STRAT (45_commands.md R141): A is accepted, B raises CFG_STRATEGY and leaves `STRAT` as it was. -/
def Obligations.StratTakesAAndRefusesB : Prop :=
  ∀ s : State, s.st = .idle →
    exec (.strat .a) s = .next { s with strat := .a } ∧
    exec (.strat .b) s = .next { s with err := .cfgStrategy, errcmd := 0x6001#16, st := .error } ∧
    encode (.strat .a) = 0x6000#16 ∧ encode (.strat .b) = 0x6001#16 ∧ Config.hasStrategyB = false ∧
    errClass .cfgStrategy = some .configurationError

/-- START: from `IDLE` it always begins a run, raises nothing and changes no argument register (45_commands.md section 2). -/
def Obligations.StartBeginsARun : Prop :=
  ∀ s : State, s.st = .idle →
    exec .start s = .next { s with t := 0, done := false, st := .run } ∧
    (∀ s' : State, exec .start s = .next s' →
      sameArguments s s' ∧ busy s' = true ∧ wValid false s' = true ∧ cmdReady false s' = false)

/-- ACK (45_commands.md R144): in `ERROR` and in `IDLE`, where in a legal state it only clears `DONE`; after an error the
argument registers are as they were before the offending command. -/
def Obligations.AckClearsAndReturns : Prop :=
  ∀ s : State, s.st ≠ .run →
    exec .ack s = .next { s with err := .none, errcmd := 0, done := false, st := .idle } ∧
    encode .ack = 0x8000#16 ∧
    (LegalState s → s.st = .idle → exec .ack s = .next { s with done := false }) ∧
    ∀ (e : ErrCode) (c : CmdWord) (s' : State), exec .ack (raise e c s) = .next s' →
      sameArguments s s' ∧ s'.t = s.t ∧ s'.st = .idle ∧ s'.err = .none ∧ s'.errcmd = 0

/-- In `ERROR` every word but 0x8000 is consumed and changes nothing (45_commands.md R145). -/
def Obligations.ErrorStateDiscardsCommands : Prop :=
  ∀ (s : State) (c : CmdWord), s.st = .error → c ≠ 0x8000#16 →
    commandStep c s = .next s ∧
    ∀ rest : List CmdWord, s.hostCmds = c :: rest → s.edge.rst = false → s.edge.offer = true →
      step s = .next { s with hostCmds := rest, edges := s.edges.tail }

/-! ## Errors -/

/-- Error entry (60_exceptions.md R153): a word whose execution raises an error, executed in `IDLE`, records the code and the
whole word, enters `ERROR` and changes nothing else; a word that raises none enters no error. -/
def Obligations.ErrorEntryIsPrecise : Prop :=
  ∀ (c : CmdWord) (s : State), s.st = .idle →
    (∀ e : ErrCode, errorOf s.params.wordW c = some e →
      commandStep c s = .next { s with err := e, errcmd := c, st := .error } ∧
      errorLine { s with err := e, errcmd := c, st := .error } = true) ∧
    (errorOf s.params.wordW c = none → ∃ s' : State, commandStep c s = .next s' ∧ s'.st ≠ .error ∧
      (c ≠ 0x8000#16 → s'.err = s.err ∧ s'.errcmd = s.errcmd))

/-- No error in `RUN` (60_exceptions.md R157). -/
def Obligations.RunNeverRaises : Prop :=
  ∀ s s' : State, s.st = .run → step s = .next s' →
    s'.st ≠ .error ∧ accepts s = none ∧ (s.edge.rst = false → s'.err = s.err ∧ s'.errcmd = s.errcmd)

/-- Return and nesting (60_exceptions.md R158): `ERROR` is left by ACK or reset only; until then the first error's record
stays. The reset clause is about the block's registers; what reset does outside is in `ResetHasPriority`. -/
def Obligations.ErrorIsLeftByAckOrResetOnly : Prop :=
  ∀ s s' : State, s.st = .error → step s = .next s' →
    (resets s → s' = { State.resetFor s.params with
      hostCmds := s'.hostCmds, edges := s'.edges, laterEdge := s'.laterEdge, sinkWords := s'.sinkWords }) ∧
    (¬resets s → accepts s = some 0x8000#16 →
      s' = { s with
        err := .none, errcmd := 0, done := false, st := .idle
        hostCmds := s.hostCmds.tail, edges := s.edges.tail }) ∧
    (¬resets s → accepts s ≠ some 0x8000#16 →
      s' = { s with hostCmds := s'.hostCmds, edges := s.edges.tail })

/-- Every register changes only by the steps of the access table (10_state.md section 4). -/
def Obligations.RegistersChangeOnlyByTheirWriters : Prop :=
  ∀ s s' : State, step s = .next s' → ¬resets s →
    (∀ (ch : Channel) (n : Nat), s'.selected ch n ≠ s.selected ch n →
      (executes s .clr ∧ s'.selected ch n = false) ∨
        ∃ v : BitVec 8, v.toNat = n ∧ executes s (.sel ch v) ∧ s'.selected ch n = true) ∧
    (s'.size ≠ s.size → executes s (.size s'.size.code)) ∧
    (s'.qual ≠ s.qual → executes s (.qual s'.qual.code)) ∧
    (s'.strat ≠ s.strat → executes s (.strat s'.strat)) ∧
    (∀ g : Signal, offsetOf s'.off g ≠ offsetOf s.off g →
      ∃ k : BitVec 8, offsetOf s'.off g = k.toNat ∧ executes s (.offs g.code k)) ∧
    (s'.t ≠ s.t → (executes s .start ∧ s'.t = 0) ∨ (emits s ∧ s'.t.toNat = s.t.toNat + 1)) ∧
    (s'.st ≠ s.st → (executes s .start ∧ s'.st = .run) ∨ (emits s ∧ atLastWord s = true ∧ s'.st = .idle) ∨
      (executes s .ack ∧ s'.st = .idle) ∨
        ∃ c : CmdWord, s.st = .idle ∧ accepts s = some c ∧ errorOf s.params.wordW c = some s'.err ∧ s'.st = .error) ∧
    (s'.done ≠ s.done → (emits s ∧ atLastWord s = true ∧ s'.done = true) ∨
      ((executes s .start ∨ executes s .ack) ∧ s'.done = false)) ∧
    (s'.err ≠ s.err ∨ s'.errcmd ≠ s.errcmd →
      (executes s .ack ∧ s'.err = .none ∧ s'.errcmd = 0) ∨
        ∃ c : CmdWord, s.st = .idle ∧ accepts s = some c ∧ errorOf s.params.wordW c = some s'.err ∧ s'.errcmd = c)

/-- The status view, field by field, and the level outputs (10_state.md R28). -/
def Obligations.StatusViewShowsTheRegisters : Prop :=
  ∀ s : State,
    (statusView s).extractLsb' 0 2 = s.st.code ∧
    (statusView s).extractLsb' 2 1 = BitVec.ofBool s.done ∧
    (statusView s).extractLsb' 3 3 = s.err.code ∧
    (statusView s).extractLsb' 6 10 = 0 ∧
    (statusView s).extractLsb' 16 16 = s.errcmd ∧
    tindex s = s.t ∧
    (busy s = true ↔ s.st = .run) ∧ doneLine s = s.done ∧ (errorLine s = true ↔ s.st = .error)

/-! ## The datapath -/

/-- The model's tables, whatever the open tables are (log 5), satisfy `CFG_WF` with exactly the word widths from 6 to 256 and
reset offsets below the width, so that the configuration of every block passes the check, in every state; the spec's
defaults do (00_scope.md section 4), and `State.reset` is that of the block which has them, the model's choice (log 3,
log 4). -/
def Obligations.ConfigurationIsWellFormed : Prop :=
  (∀ (w : Nat) (o : Offsets), cfgWf Config.tables w o = true ↔ 6 ≤ w ∧ w ≤ 256 ∧ ∀ g : Signal, offsetOf o g < w) ∧
  (∀ s : State, cfgWf Config.tables s.params.wordW s.params.offReset = true) ∧
  configure Config.tables 32 ⟨0, 1, 2, 3, 4, 5⟩ = some Config.defaults ∧ Config.defaults.wordW = 32 ∧
  (∀ g : Signal, offsetOf Config.defaults.offReset g = g.code.toNat) ∧
  State.reset = State.resetFor Config.defaults ∧ State.reset.params = Config.defaults

/-- `CFG_WF` (00_scope.md section 4) is the constraints W1 to W5 on the tables, the constraint on every quality pattern, and
those on `WORD_W` and `OFF_RESET`; a configuration that meets them makes the block with that width and those reset offsets,
and one that fails any of them is refused: it makes no block, so none runs. -/
def Obligations.ConfigurationsThatFailTheCheckAreRefused : Prop :=
  ∀ (tb : Tables) (w : Nat) (o : Offsets),
    (cfgWf tb w o = true ↔
      (∀ n : Nat, 1 ≤ n → n ≤ 90 → tb.kmap n ≤ 254 ∧ tb.kmap n % 2 = 0) ∧
      (∀ n n' : Nat, 1 ≤ n → n ≤ 90 → 1 ≤ n' → n' ≤ 90 → n ≠ n' →
        tb.kmap n + 2 ≤ tb.kmap n' ∨ tb.kmap n' + 2 ≤ tb.kmap n) ∧
      (∀ n : Nat, 1 ≤ n → n ≤ 30 → tb.cmap n ≤ 254 ∧ tb.mmap n ≤ 254 ∧ tb.ymap n ≤ 254) ∧
      (∀ (ch ch' : Channel) (n n' : Nat), ch ≠ .k → ch' ≠ .k → 1 ≤ n → n ≤ 30 → 1 ≤ n' → n' ≤ 30 → (ch, n) ≠ (ch', n') →
        tb.pairBase ch n + 2 ≤ tb.pairBase ch' n' ∨ tb.pairBase ch' n' + 2 ≤ tb.pairBase ch n) ∧
      (∀ (q : Quality) (i : Nat), i < 64 → (tb.pattern q).getLsbD i = true →
        (1 ≤ i ∧ (tb.pattern q).getLsbD (i - 1) = true) ∨ (tb.pattern q).getLsbD (i + 1) = true) ∧
      6 ≤ w ∧ w ≤ 256 ∧ ∀ g : Signal, offsetOf o g < w) ∧
    (cfgWf tb w o = true → ∃ p : Params, configure tb w o = some p ∧ p.wordW = w ∧ p.offReset = o) ∧
    (cfgWf tb w o = false → configure tb w o = none)

/-- Injectivity of the four slot maps (40_slot_mapping.md R78), for every configuration that satisfies R77. -/
def Obligations.SlotMapsAreInjective : Prop :=
  ∀ (tb : Tables) (n n' : Nat), tb.wf = true → 1 ≤ n → 1 ≤ n' → n ≠ n' →
    (n ≤ 90 → n' ≤ 90 → blackSlot tb n ≠ blackSlot tb n') ∧
    (n ≤ 30 → n' ≤ 30 →
      cyanSlot tb n ≠ cyanSlot tb n' ∧ magentaSlot tb n ≠ magentaSlot tb n' ∧ yellowSlot tb n ≠ yellowSlot tb n')

/-- Every slot pair lies in its buffer, `blackSlot` is odd, and no two colour nozzles share a slot, whatever their channels
(40_slot_mapping.md, the constraints on the tables; 20_memory.md section 3). -/
def Obligations.SlotPairsAreInBoundsAndDisjoint : Prop :=
  ∀ tb : Tables, tb.wf = true →
    (∀ n : Nat, 1 ≤ n → n ≤ 90 → blackSlot tb n % 2 = 1 ∧ blackSlot tb n ≤ 255) ∧
    (∀ (ch : Channel) (n i : Nat), ch ≠ .k → 1 ≤ n → n ≤ 30 → inPair tb ch n i = true → i < 256) ∧
    (∀ (ch ch' : Channel) (n n' i : Nat), ch ≠ .k → ch' ≠ .k → 1 ≤ n → n ≤ 30 → 1 ≤ n' → n' ≤ 30 →
      inPair tb ch n i = true → inPair tb ch' n' i = true → ch = ch' ∧ n = n')

/-- `SELBUILD` (41_selection_builder.md R81): the two buffers by slots, equal to what the procedure builds, in any order of
its four loops and, within each, of the selected nozzles. -/
def Obligations.SelectionProcedureMeetsItsDefinition : Prop :=
  ∀ (tb : Tables) (s : State), tb.wf = true →
    (bufK tb s).length = 256 ∧ (bufC tb s).length = 256 ∧
    (∀ i : Nat, i < 256 →
      ((bufK tb s).getD i false = true ↔
        ∃ n : Nat, s.selected .k n = true ∧ (i = tb.kmap n ∨ i = tb.kmap n + 1)) ∧
      ((bufC tb s).getD i false = true ↔
        (∃ n : Nat, s.selected .c n = true ∧ (i = tb.cmap n ∨ i = tb.cmap n + 1)) ∨
        (∃ n : Nat, s.selected .m n = true ∧ (i = tb.mmap n ∨ i = tb.mmap n + 1)) ∨
        (∃ n : Nat, s.selected .y n = true ∧ (i = tb.ymap n ∨ i = tb.ymap n + 1)))) ∧
    selBuildProc tb s = selBuild tb s ∧
    (∀ ks cs ms ys : List Nat,
      ks.Perm (selectedNozzles s .k) → cs.Perm (selectedNozzles s .c) →
      ms.Perm (selectedNozzles s .m) → ys.Perm (selectedNozzles s .y) →
        ∀ loops : List (Channel × List Nat), loops.Perm [(.k, ks), (.c, cs), (.m, ms), (.y, ys)] →
          markLoops tb loops = (bufK tb s, bufC tb s))

/-- Exactly two slots per selected nozzle (41_selection_builder.md R83), at most 180 in each buffer. -/
def Obligations.TwoSlotsPerSelectedNozzle : Prop :=
  ∀ (tb : Tables) (s : State), tb.wf = true →
    ones (bufK tb s) = 2 * (selectedNozzles s .k).length ∧
    ones (bufC tb s) = 2 * ((selectedNozzles s .c).length + (selectedNozzles s .m).length + (selectedNozzles s .y).length) ∧
    (∀ n i : Nat, 1 ≤ n → n ≤ 90 → s.selected .k n = false → inPair tb .k n i = true → selK tb s i = false) ∧
    (∀ (ch : Channel) (n i : Nat), ch ≠ .k → 1 ≤ n → n ≤ 30 → s.selected ch n = false → inPair tb ch n i = true →
      selC tb s i = false) ∧
    ones (bufK tb s) ≤ 180 ∧ ones (bufC tb s) ≤ 180

/-- The builder reads only the sets and is monotone: adding nozzles never clears a slot (41_selection_builder.md, Contract). -/
def Obligations.SelectionIsMonotoneInTheSets : Prop :=
  ∀ (tb : Tables) (s s' : State) (i : Nat),
    ((∀ n : Nat, s.selected .k n = true → s'.selected .k n = true) → selK tb s i = true → selK tb s' i = true) ∧
    ((∀ (ch : Channel) (n : Nat), ch ≠ .k → s.selected ch n = true → s'.selected ch n = true) →
      selC tb s i = true → selC tb s' i = true)

/-- The economy pattern (42_quality_table.md R89), whatever the open tables, and two index lists that yield it. -/
def Obligations.EconomyPatternIsFixed : Prop :=
  ∀ tb : Tables,
    tb.pattern .economy = 0x03FC030000000000#64 ∧
    (∀ i : Nat, i < 64 → (qualSlot tb .economy i = true ↔ i ∈ [40, 41, 50, 51, 52, 53, 54, 55, 56, 57])) ∧
    qualFromList [40, 50, 52, 54, 56] = qualSeq tb .economy ∧
    qualFromList [40, 50, 51, 52, 53, 54, 55, 56] = qualSeq tb .economy

/-- Every quality pattern is a union of adjacent pairs (42_quality_table.md R90), and the two forms of that constraint are
one. -/
def Obligations.QualityPatternsAreUnionsOfPairs : Prop :=
  (∀ p : BitVec 64, pairsOnly p = true ↔
    ∃ js : List Nat, (∀ j ∈ js, j ≤ 62) ∧
      ∀ i : Nat, i < 64 → (p.getLsbD i = true ↔ ∃ j ∈ js, i = j ∨ i = j + 1)) ∧
  (∀ tb : Tables, tb.wf = true → ∀ q : Quality, pairsOnly (tb.pattern q) = true) ∧
  pairsOnly Config.economyPattern = true

/-- An index list sets, for each listed index, that slot and its successor and no other (42_quality_table.md, the lookup). -/
def Obligations.QualityListSetsItsPairs : Prop :=
  ∀ js : List Nat, (∀ j ∈ js, j ≤ 62) →
    (qualFromList js).length = 64 ∧
    ∀ i : Nat, i < 64 → ((qualFromList js).getD i false = true ↔ ∃ j ∈ js, i = j ∨ i = j + 1)

/-- Raw lengths of the lines (43_phase_sequencer.md R107). -/
def Obligations.RawLineLengths : Prop :=
  ∀ (z : Droplet) (sel qbuf : Bits), sel.length = 256 → qbuf.length = 64 →
    (serialRaw z sel qbuf).length = 1038 ∧
    (ckRaw z).length = (if z = .small then 1038 else 1037)

/-- The literal phase program, zero-filled, is the closed form in `t` on both serial lines and on the clock line, and the
clock line has 288 ones (43_phase_sequencer.md R110, R111). -/
def Obligations.LinesEqualTheirClosedForms : Prop :=
  ∀ (tb : Tables) (s : State),
    (runLines tb s).sibl = (List.range 1038).map (fun t =>
      if t < 256 ∧ (s.size = .large ∨ s.size = .medium) then selK tb s t
      else if 486 ≤ t ∧ t < 742 ∧ (s.size = .large ∨ s.size = .small) then selK tb s (t - 486)
      else if 972 ≤ t ∧ t < 1036 then qualSlot tb s.qual (t - 972)
      else false) ∧
    (runLines tb s).sicl = (List.range 1038).map (fun t =>
      if t < 256 ∧ (s.size = .large ∨ s.size = .medium) then selC tb s t
      else if 486 ≤ t ∧ t < 742 ∧ (s.size = .large ∨ s.size = .small) then selC tb s (t - 486)
      else if 972 ≤ t ∧ t < 1036 then qualSlot tb s.qual (t - 972)
      else false) ∧
    (∀ d : Nat, d = (if s.size = .small then 1 else 0) →
      (runLines tb s).ck = (List.range 1038).map (fun t =>
        if t < 256 then t % 4 == 1 || t % 4 == 2
        else if 486 + d ≤ t ∧ t < 742 + d then (t - 486 - d) % 4 == 1 || (t - 486 - d) % 4 == 2
        else if 972 + d ≤ t ∧ t < 1036 + d then (t - 972 - d) % 4 == 1 || (t - 972 - d) % 4 == 2
        else false)) ∧
    ones (runLines tb s).ck = 288

/-- Lengths and numbers of ones of the finished lines, and where the serial lines are zero whatever the inputs
(43_phase_sequencer.md R113). -/
def Obligations.LineLengthsAndOnes : Prop :=
  ∀ (tb : Tables) (s : State),
    (∀ l ∈ [(runLines tb s).nc, (runLines tb s).ch, (runLines tb s).lat, (runLines tb s).ck, (runLines tb s).sibl,
      (runLines tb s).sicl], l.length = 1038) ∧
    (tb.wf = true → ∀ first second : Nat,
      first = (if s.size = .large ∨ s.size = .medium then 1 else 0) →
      second = (if s.size = .large ∨ s.size = .small then 1 else 0) →
      ones (runLines tb s).sibl =
        2 * (selectedNozzles s .k).length * (first + second) + ones (qualSeq tb s.qual) ∧
      ones (runLines tb s).sicl =
        2 * ((selectedNozzles s .c).length + (selectedNozzles s .m).length + (selectedNozzles s .y).length) *
          (first + second) + ones (qualSeq tb s.qual)) ∧
    (∀ t : Nat, (256 ≤ t ∧ t ≤ 485) ∨ (742 ≤ t ∧ t ≤ 971) ∨ (1036 ≤ t ∧ t ≤ 1037) →
      (runLines tb s).sibl.getD t false = false ∧ (runLines tb s).sicl.getD t false = false)

/-- `PACK` (44_word_packer.md R118): one word per index, the OR of the six shifted samples as naturals, so that nothing
wraps, for offsets that fit; an error otherwise if the lengths differ. -/
def Obligations.PackIsTheOrOfShifts : Prop :=
  (∀ (w n : Nat) (v : Lines) (o : Offsets), o.fits w = true →
    v.nc.length = n → v.ch.length = n → v.lat.length = n → v.ck.length = n → v.sibl.length = n → v.sicl.length = n →
      ∃ ws : List (BitVec w), pack w v o = .ok ws ∧ ws.length = n ∧
        ∀ t : Nat, t < n → (ws.getD t 0).toNat =
          ((v.nc.getD t false).toNat <<< o.nc) ||| ((v.ch.getD t false).toNat <<< o.ch) |||
          ((v.lat.getD t false).toNat <<< o.lat) ||| ((v.ck.getD t false).toNat <<< o.ck) |||
          ((v.sibl.getD t false).toNat <<< o.sibl) ||| ((v.sicl.getD t false).toNat <<< o.sicl)) ∧
  (∀ (w : Nat) (v : Lines) (o : Offsets), (pack w v o = .error .cfgLength ∨ ∃ ws : List (BitVec w), pack w v o = .ok ws) ∧
    (sameLength v = false → pack w v o = .error .cfgLength))

/-- `PACK` on vectors of differing lengths gives no word and CFG_LENGTH, class ConfigurationError (44_word_packer.md R119). -/
def Obligations.PackRejectsUnequalLengths : Prop :=
  ∀ (w : Nat) (v : Lines) (o : Offsets),
    ¬(v.ch.length = v.nc.length ∧ v.lat.length = v.nc.length ∧ v.ck.length = v.nc.length ∧
      v.sibl.length = v.nc.length ∧ v.sicl.length = v.nc.length) →
    pack w v o = .error .cfgLength ∧ errClass .cfgLength = some .configurationError

/-- A control word's bits (30_encoding.md R64): bit `OFF[s]` carries signal `s`, signals that share a bit are ORed, every
other bit is 0; with the reset offsets the word is one of eight values. -/
def Obligations.WordBitsAreTheSamples : Prop :=
  ∀ (w : Nat) (tb : Tables) (s : State) (t : Nat), s.off.fits w = true →
    (∀ j : Nat, (wordAt w tb s t).getLsbD j = true ↔ ∃ g : Signal, offsetOf s.off g = j ∧ sample tb s g t = true) ∧
    (s.off = ⟨0, 1, 2, 3, 4, 5⟩ →
      (wordAt w tb s t).toNat ∈ [0x00, 0x08, 0x10, 0x18, 0x20, 0x28, 0x30, 0x38])

/-- `WORD(t) = PACK(SEQA(...), OFF)[t]` (44_word_packer.md R122), so the packer never raises CFG_LENGTH in the block; and
the control lines contribute nothing. -/
def Obligations.PackOfTheLinesIsTheWords : Prop :=
  ∀ (w : Nat) (tb : Tables) (s : State),
    pack w (runLines tb s) s.off = .ok ((List.range 1038).map (wordAt w tb s)) ∧
    ∀ t : Nat, wordAt w tb s t =
      (BitVec.ofNat w (sample tb s .ck t).toNat <<< s.off.ck) |||
      (BitVec.ofNat w (sample tb s .sibl t).toNat <<< s.off.sibl) |||
      (BitVec.ofNat w (sample tb s .sicl t).toNat <<< s.off.sicl)

/-- Equal argument registers give equal word sequences in one block: nothing of one run influences a later one (20_memory.md
section 7). -/
def Obligations.EqualArgumentsGiveEqualRuns : Prop :=
  ∀ s s' : State, s'.params = s.params → sameArguments s s' → runWords s' = runWords s

/-! ## Runs -/

/-- The emit step (44_word_packer.md R124): the offered word is delivered, `T` advances, the last word ends the run, and
nothing else changes; while the sink is not ready nothing at all happens and the same word stays offered. -/
def Obligations.EmitDeliversAndAdvances : Prop :=
  ∀ s : State, s.st = .run → s.strat = .a → s.t.toNat < 1038 → s.edge.rst = false →
    wValid s.edge.rst s = true ∧
    wData s.edge.rst s = some (wordAt s.params.wordW Config.tables s s.t.toNat) ∧
    wLast s.edge.rst s = some (s.t.toNat == 1037) ∧
    (s.edge.wReady = true → s.t.toNat = 1037 →
      step s = .next { s with
        sinkWords := s.sinkWords ++ [⟨(wordAt s.params.wordW Config.tables s 1037).toNat, true⟩]
        t := 1038, st := .idle, done := true, edges := s.edges.tail }) ∧
    (s.edge.wReady = true → s.t.toNat ≠ 1037 →
      step s = .next { s with
        sinkWords := s.sinkWords ++ [⟨(wordAt s.params.wordW Config.tables s s.t.toNat).toNat, false⟩]
        t := BitVec.ofNat 11 (s.t.toNat + 1), edges := s.edges.tail }) ∧
    (s.edge.wReady = false → step s = .next { s with edges := s.edges.tail } ∧
      wData false { s with edges := s.edges.tail } = wData false s)

/-- At every step of a run, whatever the sink's readiness, the words delivered so far are the first `T` words of the run's
sequence, and the arguments do not change (20_memory.md section 6). -/
def Obligations.DeliveredWordsArePrefixOfTheRun : Prop :=
  ∀ (s s' : State) (before : List Delivered), s.st = .run → s.edge.rst = false →
    s.sinkWords = before ++ (runWords s).take s.t.toNat → step s = .next s' →
      s'.sinkWords = before ++ (runWords s).take s'.t.toNat ∧
      sameArguments s s' ∧ runWords s' = runWords s ∧
      (s'.st = .run ∨ (s'.st = .idle ∧ s'.done = true ∧ s'.t.toNat = 1038))

/-- A run emits exactly 1038 words in order, each once, `w_last` with the last only, and they are
`PACK(SEQA(SIZE, SELBUILD(NSET), QUALSEQ(QUAL)), OFF)` on the registers as they stood at START (44_word_packer.md R125), here
with a sink that is ready at 1038 edges in a row. -/
def Obligations.RunDeliversThePackedSequence : Prop :=
  ∀ s : State, s.st = .idle → s.strat = .a →
    1038 ≤ s.edges.length → (∀ e ∈ s.edges.take 1038, e.rst = false ∧ e.wReady = true) →
    ∃ (packed : List (BitVec s.params.wordW)) (ws : List Delivered),
      pack s.params.wordW (runLines Config.tables s) s.off = .ok packed ∧ ws.map Delivered.word = packed.map BitVec.toNat ∧
      ws.length = 1038 ∧ ws.map Delivered.last = List.replicate 1037 false ++ [true] ∧
      ∀ s' : State, exec .start s = .next s' →
        runSteps 1038 s' = .next { s' with
          sinkWords := s.sinkWords ++ ws, t := 1038, st := .idle, done := true, edges := s.edges.drop 1038 }

/-- A run ends once the sink has been ready 1038 times, however long it stalled in between, if no reset comes
(70_reset_and_hazards.md sections 3 and 4). The host is taken to offer nothing, so that the end of the run can be seen. -/
def Obligations.RunEndsWhenTheSinkKeepsAccepting : Prop :=
  ∀ (s : State) (k : Nat), s.st = .run → s.strat = .a → s.t = 0 → s.hostCmds = [] →
    k ≤ s.edges.length → (∀ e ∈ s.edges.take k, e.rst = false) →
    1038 ≤ ((s.edges.take k).filter fun e => e.wReady).length →
      runSteps k s = .next { s with
        sinkWords := s.sinkWords ++ runWords s, t := 1038, st := .idle, done := true, edges := s.edges.drop k }

/-- A sink that never accepts, and no reset: the block stays in `RUN` at the same time index for ever, its words not emitted
and the host's held (70_reset_and_hazards.md sections 3 and 4, 93_implementation_defined.md part 1). -/
def Obligations.SinkThatNeverAcceptsHoldsTheRunForEver : Prop :=
  ∀ s : State, s.st = .run → s.strat = .a → s.t.toNat < 1038 →
    (∀ e ∈ s.edges, e.rst = false ∧ e.wReady = false) → s.laterEdge.rst = false → s.laterEdge.wReady = false →
      ∀ n : Nat, runSteps n s = .next { s with edges := s.edges.drop n }

/-- A sink that stalls as it likes at finitely many edges and accepts at all later ones, and no reset: the run ends, with
exactly the rest of its words, within the listed edges and 1038 more, whatever the host offers (70_reset_and_hazards.md
section 4). -/
def Obligations.FairSinkEndsTheRun : Prop :=
  ∀ s : State, s.st = .run → s.strat = .a → s.t.toNat < 1038 →
    (∀ e ∈ s.edges, e.rst = false) → s.laterEdge.rst = false → s.laterEdge.wReady = true →
      ∃ (n : Nat) (s' : State), n ≤ s.edges.length + 1038 ∧ runSteps n s = .next s' ∧
        s'.st = .idle ∧ s'.done = true ∧ s'.t.toNat = 1038 ∧
        s'.sinkWords = s.sinkWords ++ (runWords s).drop s.t.toNat ∧
        sameArguments s s' ∧ s'.hostCmds = s.hostCmds

/-- The pseudo-command GEN (45_commands.md on the source's call, 30_encoding.md section 7): with valid nozzles it starts a
run on exactly the arguments it names; with an invalid one that a SEL can carry (below 256: larger members expand to nothing,
log 22) it ends in the error state and no word is emitted. The words are delivered at as many clear edges. -/
def Obligations.GenStartsExactlyTheNamedRun : Prop :=
  ∀ (s : State) (q : Quality) (z : Droplet) (set : Channel → List Nat), s.st = .idle →
    ((∀ ch : Channel, ∀ n ∈ set ch, 1 ≤ n ∧ n ≤ nozzleMax ch) →
      ∃ s' : State, deliver (gen q.code z.code (set .k) (set .c) (set .m) (set .y)) s = .next s' ∧
        s'.st = .run ∧ s'.t = 0 ∧ s'.done = false ∧ s'.size = z ∧ s'.qual = q ∧ s'.strat = .a ∧ s'.off = s.off ∧
        (∀ (ch : Channel) (n : Nat), s'.selected ch n = true ↔ n ∈ set ch) ∧
        s'.err = s.err ∧ s'.sinkWords = s.sinkWords ∧ s'.hostCmds = s.hostCmds) ∧
    ((∃ (ch : Channel) (n : Nat), n ∈ set ch ∧ n < 256 ∧ ¬(1 ≤ n ∧ n ≤ nozzleMax ch)) →
      ∃ s' : State, deliver (gen q.code z.code (set .k) (set .c) (set .m) (set .y)) s = .next s' ∧
        s'.st = .error ∧ s'.err = .valNozzle ∧ s'.sinkWords = s.sinkWords)
end

