-- ==== Sys2Proof/Laws/State.lean ====
section
/-! SUPPORT. One lemma per field per named update of State, so that no later proof unfolds a record update. -/

namespace Sys2Proof.Machine

/-! ## clearSets -/

@[simp] theorem clearSets_nsetK (s : State) : (s.clearSets).nsetK = 0 := (rfl)
@[simp] theorem clearSets_nsetC (s : State) : (s.clearSets).nsetC = 0 := (rfl)
@[simp] theorem clearSets_nsetM (s : State) : (s.clearSets).nsetM = 0 := (rfl)
@[simp] theorem clearSets_nsetY (s : State) : (s.clearSets).nsetY = 0 := (rfl)
@[simp] theorem clearSets_size (s : State) : (s.clearSets).size = s.size := (rfl)
@[simp] theorem clearSets_qual (s : State) : (s.clearSets).qual = s.qual := (rfl)
@[simp] theorem clearSets_strat (s : State) : (s.clearSets).strat = s.strat := (rfl)
@[simp] theorem clearSets_off (s : State) : (s.clearSets).off = s.off := (rfl)
@[simp] theorem clearSets_t (s : State) : (s.clearSets).t = s.t := (rfl)
@[simp] theorem clearSets_st (s : State) : (s.clearSets).st = s.st := (rfl)
@[simp] theorem clearSets_done (s : State) : (s.clearSets).done = s.done := (rfl)
@[simp] theorem clearSets_err (s : State) : (s.clearSets).err = s.err := (rfl)
@[simp] theorem clearSets_errcmd (s : State) : (s.clearSets).errcmd = s.errcmd := (rfl)
@[simp] theorem clearSets_params (s : State) : (s.clearSets).params = s.params := (rfl)
@[simp] theorem clearSets_hostCmds (s : State) : (s.clearSets).hostCmds = s.hostCmds := (rfl)
@[simp] theorem clearSets_edges (s : State) : (s.clearSets).edges = s.edges := (rfl)
@[simp] theorem clearSets_laterEdge (s : State) : (s.clearSets).laterEdge = s.laterEdge := (rfl)
@[simp] theorem clearSets_sinkWords (s : State) : (s.clearSets).sinkWords = s.sinkWords := (rfl)

/-! ## startRun -/

@[simp] theorem startRun_nsetK (s : State) : (s.startRun).nsetK = s.nsetK := (rfl)
@[simp] theorem startRun_nsetC (s : State) : (s.startRun).nsetC = s.nsetC := (rfl)
@[simp] theorem startRun_nsetM (s : State) : (s.startRun).nsetM = s.nsetM := (rfl)
@[simp] theorem startRun_nsetY (s : State) : (s.startRun).nsetY = s.nsetY := (rfl)
@[simp] theorem startRun_size (s : State) : (s.startRun).size = s.size := (rfl)
@[simp] theorem startRun_qual (s : State) : (s.startRun).qual = s.qual := (rfl)
@[simp] theorem startRun_strat (s : State) : (s.startRun).strat = s.strat := (rfl)
@[simp] theorem startRun_off (s : State) : (s.startRun).off = s.off := (rfl)
@[simp] theorem startRun_t (s : State) : (s.startRun).t = 0 := (rfl)
@[simp] theorem startRun_st (s : State) : (s.startRun).st = .run := (rfl)
@[simp] theorem startRun_done (s : State) : (s.startRun).done = false := (rfl)
@[simp] theorem startRun_err (s : State) : (s.startRun).err = s.err := (rfl)
@[simp] theorem startRun_errcmd (s : State) : (s.startRun).errcmd = s.errcmd := (rfl)
@[simp] theorem startRun_params (s : State) : (s.startRun).params = s.params := (rfl)
@[simp] theorem startRun_hostCmds (s : State) : (s.startRun).hostCmds = s.hostCmds := (rfl)
@[simp] theorem startRun_edges (s : State) : (s.startRun).edges = s.edges := (rfl)
@[simp] theorem startRun_laterEdge (s : State) : (s.startRun).laterEdge = s.laterEdge := (rfl)
@[simp] theorem startRun_sinkWords (s : State) : (s.startRun).sinkWords = s.sinkWords := (rfl)

/-! ## raise -/

@[simp] theorem raise_nsetK (e : ErrCode) (c : CmdWord) (s : State) : (raise e c s).nsetK = s.nsetK := (rfl)
@[simp] theorem raise_nsetC (e : ErrCode) (c : CmdWord) (s : State) : (raise e c s).nsetC = s.nsetC := (rfl)
@[simp] theorem raise_nsetM (e : ErrCode) (c : CmdWord) (s : State) : (raise e c s).nsetM = s.nsetM := (rfl)
@[simp] theorem raise_nsetY (e : ErrCode) (c : CmdWord) (s : State) : (raise e c s).nsetY = s.nsetY := (rfl)
@[simp] theorem raise_size (e : ErrCode) (c : CmdWord) (s : State) : (raise e c s).size = s.size := (rfl)
@[simp] theorem raise_qual (e : ErrCode) (c : CmdWord) (s : State) : (raise e c s).qual = s.qual := (rfl)
@[simp] theorem raise_strat (e : ErrCode) (c : CmdWord) (s : State) : (raise e c s).strat = s.strat := (rfl)
@[simp] theorem raise_off (e : ErrCode) (c : CmdWord) (s : State) : (raise e c s).off = s.off := (rfl)
@[simp] theorem raise_t (e : ErrCode) (c : CmdWord) (s : State) : (raise e c s).t = s.t := (rfl)
@[simp] theorem raise_st (e : ErrCode) (c : CmdWord) (s : State) : (raise e c s).st = .error := (rfl)
@[simp] theorem raise_done (e : ErrCode) (c : CmdWord) (s : State) : (raise e c s).done = s.done := (rfl)
@[simp] theorem raise_err (e : ErrCode) (c : CmdWord) (s : State) : (raise e c s).err = e := (rfl)
@[simp] theorem raise_errcmd (e : ErrCode) (c : CmdWord) (s : State) : (raise e c s).errcmd = c := (rfl)
@[simp] theorem raise_params (e : ErrCode) (c : CmdWord) (s : State) : (raise e c s).params = s.params := (rfl)
@[simp] theorem raise_hostCmds (e : ErrCode) (c : CmdWord) (s : State) : (raise e c s).hostCmds = s.hostCmds := (rfl)
@[simp] theorem raise_edges (e : ErrCode) (c : CmdWord) (s : State) : (raise e c s).edges = s.edges := (rfl)
@[simp] theorem raise_laterEdge (e : ErrCode) (c : CmdWord) (s : State) : (raise e c s).laterEdge = s.laterEdge := (rfl)
@[simp] theorem raise_sinkWords (e : ErrCode) (c : CmdWord) (s : State) : (raise e c s).sinkWords = s.sinkWords := (rfl)

/-! ## acknowledge -/

@[simp] theorem acknowledge_nsetK (s : State) : (acknowledge s).nsetK = s.nsetK := (rfl)
@[simp] theorem acknowledge_nsetC (s : State) : (acknowledge s).nsetC = s.nsetC := (rfl)
@[simp] theorem acknowledge_nsetM (s : State) : (acknowledge s).nsetM = s.nsetM := (rfl)
@[simp] theorem acknowledge_nsetY (s : State) : (acknowledge s).nsetY = s.nsetY := (rfl)
@[simp] theorem acknowledge_size (s : State) : (acknowledge s).size = s.size := (rfl)
@[simp] theorem acknowledge_qual (s : State) : (acknowledge s).qual = s.qual := (rfl)
@[simp] theorem acknowledge_strat (s : State) : (acknowledge s).strat = s.strat := (rfl)
@[simp] theorem acknowledge_off (s : State) : (acknowledge s).off = s.off := (rfl)
@[simp] theorem acknowledge_t (s : State) : (acknowledge s).t = s.t := (rfl)
@[simp] theorem acknowledge_st (s : State) : (acknowledge s).st = .idle := (rfl)
@[simp] theorem acknowledge_done (s : State) : (acknowledge s).done = false := (rfl)
@[simp] theorem acknowledge_err (s : State) : (acknowledge s).err = .none := (rfl)
@[simp] theorem acknowledge_errcmd (s : State) : (acknowledge s).errcmd = 0 := (rfl)
@[simp] theorem acknowledge_params (s : State) : (acknowledge s).params = s.params := (rfl)
@[simp] theorem acknowledge_hostCmds (s : State) : (acknowledge s).hostCmds = s.hostCmds := (rfl)
@[simp] theorem acknowledge_edges (s : State) : (acknowledge s).edges = s.edges := (rfl)
@[simp] theorem acknowledge_laterEdge (s : State) : (acknowledge s).laterEdge = s.laterEdge := (rfl)
@[simp] theorem acknowledge_sinkWords (s : State) : (acknowledge s).sinkWords = s.sinkWords := (rfl)

/-! ## resetBlock -/

@[simp] theorem resetBlock_nsetK (s : State) : (resetBlock s).nsetK = (State.resetFor s.params).nsetK := (rfl)
@[simp] theorem resetBlock_nsetC (s : State) : (resetBlock s).nsetC = (State.resetFor s.params).nsetC := (rfl)
@[simp] theorem resetBlock_nsetM (s : State) : (resetBlock s).nsetM = (State.resetFor s.params).nsetM := (rfl)
@[simp] theorem resetBlock_nsetY (s : State) : (resetBlock s).nsetY = (State.resetFor s.params).nsetY := (rfl)
@[simp] theorem resetBlock_size (s : State) : (resetBlock s).size = (State.resetFor s.params).size := (rfl)
@[simp] theorem resetBlock_qual (s : State) : (resetBlock s).qual = (State.resetFor s.params).qual := (rfl)
@[simp] theorem resetBlock_strat (s : State) : (resetBlock s).strat = (State.resetFor s.params).strat := (rfl)
@[simp] theorem resetBlock_off (s : State) : (resetBlock s).off = (State.resetFor s.params).off := (rfl)
@[simp] theorem resetBlock_t (s : State) : (resetBlock s).t = (State.resetFor s.params).t := (rfl)
@[simp] theorem resetBlock_st (s : State) : (resetBlock s).st = (State.resetFor s.params).st := (rfl)
@[simp] theorem resetBlock_done (s : State) : (resetBlock s).done = (State.resetFor s.params).done := (rfl)
@[simp] theorem resetBlock_err (s : State) : (resetBlock s).err = (State.resetFor s.params).err := (rfl)
@[simp] theorem resetBlock_errcmd (s : State) : (resetBlock s).errcmd = (State.resetFor s.params).errcmd := (rfl)
@[simp] theorem resetBlock_params (s : State) : (resetBlock s).params = s.params := (rfl)
@[simp] theorem resetBlock_hostCmds (s : State) : (resetBlock s).hostCmds = s.hostCmds := (rfl)
@[simp] theorem resetBlock_edges (s : State) : (resetBlock s).edges = s.edges := (rfl)
@[simp] theorem resetBlock_laterEdge (s : State) : (resetBlock s).laterEdge = s.laterEdge := (rfl)
@[simp] theorem resetBlock_sinkWords (s : State) : (resetBlock s).sinkWords = s.sinkWords := (rfl)

/-! ## pastEdge -/

@[simp] theorem pastEdge_nsetK (s : State) : (s.pastEdge).nsetK = s.nsetK := (rfl)
@[simp] theorem pastEdge_nsetC (s : State) : (s.pastEdge).nsetC = s.nsetC := (rfl)
@[simp] theorem pastEdge_nsetM (s : State) : (s.pastEdge).nsetM = s.nsetM := (rfl)
@[simp] theorem pastEdge_nsetY (s : State) : (s.pastEdge).nsetY = s.nsetY := (rfl)
@[simp] theorem pastEdge_size (s : State) : (s.pastEdge).size = s.size := (rfl)
@[simp] theorem pastEdge_qual (s : State) : (s.pastEdge).qual = s.qual := (rfl)
@[simp] theorem pastEdge_strat (s : State) : (s.pastEdge).strat = s.strat := (rfl)
@[simp] theorem pastEdge_off (s : State) : (s.pastEdge).off = s.off := (rfl)
@[simp] theorem pastEdge_t (s : State) : (s.pastEdge).t = s.t := (rfl)
@[simp] theorem pastEdge_st (s : State) : (s.pastEdge).st = s.st := (rfl)
@[simp] theorem pastEdge_done (s : State) : (s.pastEdge).done = s.done := (rfl)
@[simp] theorem pastEdge_err (s : State) : (s.pastEdge).err = s.err := (rfl)
@[simp] theorem pastEdge_errcmd (s : State) : (s.pastEdge).errcmd = s.errcmd := (rfl)
@[simp] theorem pastEdge_params (s : State) : (s.pastEdge).params = s.params := (rfl)
@[simp] theorem pastEdge_hostCmds (s : State) : (s.pastEdge).hostCmds = s.hostCmds := (rfl)
@[simp] theorem pastEdge_edges (s : State) : (s.pastEdge).edges = s.edges.tail := (rfl)
@[simp] theorem pastEdge_laterEdge (s : State) : (s.pastEdge).laterEdge = s.laterEdge := (rfl)
@[simp] theorem pastEdge_sinkWords (s : State) : (s.pastEdge).sinkWords = s.sinkWords := (rfl)

/-! ## consumeCmd -/

@[simp] theorem consumeCmd_nsetK (s : State) : (s.consumeCmd).nsetK = s.nsetK := (rfl)
@[simp] theorem consumeCmd_nsetC (s : State) : (s.consumeCmd).nsetC = s.nsetC := (rfl)
@[simp] theorem consumeCmd_nsetM (s : State) : (s.consumeCmd).nsetM = s.nsetM := (rfl)
@[simp] theorem consumeCmd_nsetY (s : State) : (s.consumeCmd).nsetY = s.nsetY := (rfl)
@[simp] theorem consumeCmd_size (s : State) : (s.consumeCmd).size = s.size := (rfl)
@[simp] theorem consumeCmd_qual (s : State) : (s.consumeCmd).qual = s.qual := (rfl)
@[simp] theorem consumeCmd_strat (s : State) : (s.consumeCmd).strat = s.strat := (rfl)
@[simp] theorem consumeCmd_off (s : State) : (s.consumeCmd).off = s.off := (rfl)
@[simp] theorem consumeCmd_t (s : State) : (s.consumeCmd).t = s.t := (rfl)
@[simp] theorem consumeCmd_st (s : State) : (s.consumeCmd).st = s.st := (rfl)
@[simp] theorem consumeCmd_done (s : State) : (s.consumeCmd).done = s.done := (rfl)
@[simp] theorem consumeCmd_err (s : State) : (s.consumeCmd).err = s.err := (rfl)
@[simp] theorem consumeCmd_errcmd (s : State) : (s.consumeCmd).errcmd = s.errcmd := (rfl)
@[simp] theorem consumeCmd_params (s : State) : (s.consumeCmd).params = s.params := (rfl)
@[simp] theorem consumeCmd_hostCmds (s : State) : (s.consumeCmd).hostCmds = s.hostCmds.tail := (rfl)
@[simp] theorem consumeCmd_edges (s : State) : (s.consumeCmd).edges = s.edges := (rfl)
@[simp] theorem consumeCmd_laterEdge (s : State) : (s.consumeCmd).laterEdge = s.laterEdge := (rfl)
@[simp] theorem consumeCmd_sinkWords (s : State) : (s.consumeCmd).sinkWords = s.sinkWords := (rfl)

/-! ## select -/

@[simp] theorem select_size (s : State) (ch : Channel) (n : Nat) : (s.select ch n).size = s.size := by cases ch <;> exact rfl
@[simp] theorem select_qual (s : State) (ch : Channel) (n : Nat) : (s.select ch n).qual = s.qual := by cases ch <;> exact rfl
@[simp] theorem select_strat (s : State) (ch : Channel) (n : Nat) : (s.select ch n).strat = s.strat := by cases ch <;> exact rfl
@[simp] theorem select_off (s : State) (ch : Channel) (n : Nat) : (s.select ch n).off = s.off := by cases ch <;> exact rfl
@[simp] theorem select_t (s : State) (ch : Channel) (n : Nat) : (s.select ch n).t = s.t := by cases ch <;> exact rfl
@[simp] theorem select_st (s : State) (ch : Channel) (n : Nat) : (s.select ch n).st = s.st := by cases ch <;> exact rfl
@[simp] theorem select_done (s : State) (ch : Channel) (n : Nat) : (s.select ch n).done = s.done := by cases ch <;> exact rfl
@[simp] theorem select_err (s : State) (ch : Channel) (n : Nat) : (s.select ch n).err = s.err := by cases ch <;> exact rfl
@[simp] theorem select_errcmd (s : State) (ch : Channel) (n : Nat) : (s.select ch n).errcmd = s.errcmd := by cases ch <;> exact rfl
@[simp] theorem select_params (s : State) (ch : Channel) (n : Nat) : (s.select ch n).params = s.params := by cases ch <;> exact rfl
@[simp] theorem select_hostCmds (s : State) (ch : Channel) (n : Nat) : (s.select ch n).hostCmds = s.hostCmds := by cases ch <;> exact rfl
@[simp] theorem select_edges (s : State) (ch : Channel) (n : Nat) : (s.select ch n).edges = s.edges := by cases ch <;> exact rfl
@[simp] theorem select_laterEdge (s : State) (ch : Channel) (n : Nat) : (s.select ch n).laterEdge = s.laterEdge := by cases ch <;> exact rfl
@[simp] theorem select_sinkWords (s : State) (ch : Channel) (n : Nat) : (s.select ch n).sinkWords = s.sinkWords := by cases ch <;> exact rfl

/-! ## setOffset -/

@[simp] theorem setOffset_nsetK (s : State) (g : Signal) (k : Nat) : (s.setOffset g k).nsetK = s.nsetK := by cases g <;> rfl
@[simp] theorem setOffset_nsetC (s : State) (g : Signal) (k : Nat) : (s.setOffset g k).nsetC = s.nsetC := by cases g <;> rfl
@[simp] theorem setOffset_nsetM (s : State) (g : Signal) (k : Nat) : (s.setOffset g k).nsetM = s.nsetM := by cases g <;> rfl
@[simp] theorem setOffset_nsetY (s : State) (g : Signal) (k : Nat) : (s.setOffset g k).nsetY = s.nsetY := by cases g <;> rfl
@[simp] theorem setOffset_size (s : State) (g : Signal) (k : Nat) : (s.setOffset g k).size = s.size := by cases g <;> rfl
@[simp] theorem setOffset_qual (s : State) (g : Signal) (k : Nat) : (s.setOffset g k).qual = s.qual := by cases g <;> rfl
@[simp] theorem setOffset_strat (s : State) (g : Signal) (k : Nat) : (s.setOffset g k).strat = s.strat := by cases g <;> rfl
@[simp] theorem setOffset_t (s : State) (g : Signal) (k : Nat) : (s.setOffset g k).t = s.t := by cases g <;> rfl
@[simp] theorem setOffset_st (s : State) (g : Signal) (k : Nat) : (s.setOffset g k).st = s.st := by cases g <;> rfl
@[simp] theorem setOffset_done (s : State) (g : Signal) (k : Nat) : (s.setOffset g k).done = s.done := by cases g <;> rfl
@[simp] theorem setOffset_err (s : State) (g : Signal) (k : Nat) : (s.setOffset g k).err = s.err := by cases g <;> rfl
@[simp] theorem setOffset_errcmd (s : State) (g : Signal) (k : Nat) : (s.setOffset g k).errcmd = s.errcmd := by cases g <;> rfl
@[simp] theorem setOffset_params (s : State) (g : Signal) (k : Nat) : (s.setOffset g k).params = s.params := by cases g <;> rfl
@[simp] theorem setOffset_hostCmds (s : State) (g : Signal) (k : Nat) : (s.setOffset g k).hostCmds = s.hostCmds := by cases g <;> rfl
@[simp] theorem setOffset_edges (s : State) (g : Signal) (k : Nat) : (s.setOffset g k).edges = s.edges := by cases g <;> rfl
@[simp] theorem setOffset_laterEdge (s : State) (g : Signal) (k : Nat) : (s.setOffset g k).laterEdge = s.laterEdge := by cases g <;> rfl
@[simp] theorem setOffset_sinkWords (s : State) (g : Signal) (k : Nat) : (s.setOffset g k).sinkWords = s.sinkWords := by cases g <;> rfl

/-! ## emitStep -/

@[simp] theorem emitStep_nsetK (s : State) : (emitStep s).nsetK = s.nsetK := by unfold emitStep; split <;> rfl
@[simp] theorem emitStep_nsetC (s : State) : (emitStep s).nsetC = s.nsetC := by unfold emitStep; split <;> rfl
@[simp] theorem emitStep_nsetM (s : State) : (emitStep s).nsetM = s.nsetM := by unfold emitStep; split <;> rfl
@[simp] theorem emitStep_nsetY (s : State) : (emitStep s).nsetY = s.nsetY := by unfold emitStep; split <;> rfl
@[simp] theorem emitStep_size (s : State) : (emitStep s).size = s.size := by unfold emitStep; split <;> rfl
@[simp] theorem emitStep_qual (s : State) : (emitStep s).qual = s.qual := by unfold emitStep; split <;> rfl
@[simp] theorem emitStep_strat (s : State) : (emitStep s).strat = s.strat := by unfold emitStep; split <;> rfl
@[simp] theorem emitStep_off (s : State) : (emitStep s).off = s.off := by unfold emitStep; split <;> rfl
@[simp] theorem emitStep_t (s : State) : (emitStep s).t = if atLastWord s then 1038 else s.t + 1 := by unfold emitStep; split <;> rfl
@[simp] theorem emitStep_st (s : State) : (emitStep s).st = if atLastWord s then .idle else s.st := by unfold emitStep; split <;> rfl
@[simp] theorem emitStep_done (s : State) : (emitStep s).done = if atLastWord s then true else s.done := by unfold emitStep; split <;> rfl
@[simp] theorem emitStep_err (s : State) : (emitStep s).err = s.err := by unfold emitStep; split <;> rfl
@[simp] theorem emitStep_errcmd (s : State) : (emitStep s).errcmd = s.errcmd := by unfold emitStep; split <;> rfl
@[simp] theorem emitStep_params (s : State) : (emitStep s).params = s.params := by unfold emitStep; split <;> rfl
@[simp] theorem emitStep_hostCmds (s : State) : (emitStep s).hostCmds = s.hostCmds := by unfold emitStep; split <;> rfl
@[simp] theorem emitStep_edges (s : State) : (emitStep s).edges = s.edges := by unfold emitStep; split <;> rfl
@[simp] theorem emitStep_laterEdge (s : State) : (emitStep s).laterEdge = s.laterEdge := by unfold emitStep; split <;> rfl
@[simp] theorem emitStep_sinkWords (s : State) : (emitStep s).sinkWords = s.sinkWords ++ [offered s] := by unfold emitStep; split <;> rfl

end Sys2Proof.Machine
end

