-- ==== Sys2Proof/Laws/Ops.lean ====
section
/-! SUPPORT. What each shared operation can do: the state check, the nozzle sets, the offset registers, slots of a buffer. -/

namespace Sys2Proof.Machine

/-! ## The state check -/

theorem whenIdle_of_idle {s : State} (h : s.st = .idle) (o) : whenIdle s o = o := by simp [whenIdle, h]

theorem whenIdle_of_error {s : State} (h : s.st = .error) (o) : whenIdle s o = .next s := by simp [whenIdle, h]

theorem whenIdle_of_run {s : State} (h : s.st = .run) (o) : whenIdle s o = .next s := by simp [whenIdle, h]

/-- What `whenIdle` can answer with a next state. -/
theorem whenIdle_cases {s s' : State} {o} (h : whenIdle s o = .next s') :
    (s.st = .idle ∧ o = .next s') ∨ (s.st ≠ .idle ∧ s' = s) := by
  unfold whenIdle at h
  cases hs : s.st <;> simp_all

/-! ## Nozzle sets -/

/-- A set has elements for the channel's nozzle numbers only (10_state.md R17, R18). -/
theorem selected_bounds {s : State} {ch : Channel} {n : Nat} (h : s.selected ch n = true) :
    1 ≤ n ∧ n ≤ nozzleMax ch := by
  cases ch <;> simp only [State.selected, Bool.and_eq_true, decide_eq_true_eq] at h <;>
    exact ⟨h.1, by have := BitVec.lt_of_getLsbD h.2; simp only [nozzleMax, Config.nk, Config.nColour]; omega⟩

/-- Read after write on the nozzle sets. -/
theorem selected_select (s : State) (ch ch' : Channel) (n m : Nat) (h1 : 1 ≤ n) (h2 : n ≤ nozzleMax ch) :
    (s.select ch n).selected ch' m = (s.selected ch' m || (ch' == ch && m == n)) := by
  have key : ∀ w : Nat, n ≤ w → 1 ≤ m → (decide (n - 1 < w) && decide (n - 1 = m - 1)) = (m == n) := by
    intro w hw hm
    by_cases hmn : m = n
    · subst hmn; simp; omega
    · have : n - 1 ≠ m - 1 := by omega
      simp [hmn, this]
  rcases Nat.eq_zero_or_pos m with rfl | hm
  · have hn : (0 == n) = false := by simp; omega
    cases ch <;> cases ch' <;> simp [State.selected, hn]
  · cases ch <;> simp only [nozzleMax, Config.nk, Config.nColour] at h2 <;>
      cases ch' <;> simp only [State.selected, State.select, BitVec.getLsbD_or, BitVec.getLsbD_twoPow] <;>
      first
        | (rw [key _ h2 hm, show decide (1 ≤ m) = true from decide_eq_true hm]; rfl)
        | (simp only [show ∀ a b : Channel, (a == b) = decide (a = b) from fun _ _ => rfl]; simp)

theorem selected_clearSets (s : State) (ch : Channel) (n : Nat) : s.clearSets.selected ch n = false := by
  cases ch <;> simp [State.selected, State.clearSets]

theorem selected_congr {s s' : State} (hk : s'.nsetK = s.nsetK) (hc : s'.nsetC = s.nsetC) (hm : s'.nsetM = s.nsetM)
    (hy : s'.nsetY = s.nsetY) (ch : Channel) (n : Nat) : s'.selected ch n = s.selected ch n := by
  cases ch <;> simp [State.selected, *]

/-- SELs commute (45_commands.md R135). -/
theorem select_comm (s : State) (ch ch' : Channel) (n n' : Nat) :
    (s.select ch n).select ch' n' = (s.select ch' n').select ch n := by
  have key : ∀ {w : Nat} (v a b : BitVec w), v ||| a ||| b = v ||| b ||| a := fun v a b => by
    rw [BitVec.or_assoc, BitVec.or_comm a b, BitVec.or_assoc]
  cases ch <;> cases ch' <;> simp only [State.select, key _ (BitVec.twoPow _ (n - 1)) (BitVec.twoPow _ (n' - 1))]

/-- Selecting a selected nozzle changes nothing (45_commands.md R135). -/
theorem select_of_selected {s : State} {ch : Channel} {n : Nat} (h : s.selected ch n = true) : s.select ch n = s := by
  have key : ∀ {w : Nat} (v : BitVec w), v.getLsbD (n - 1) = true → v ||| BitVec.twoPow w (n - 1) = v := by
    intro w v hv
    apply BitVec.eq_of_getLsbD_eq
    intro i hi
    by_cases hin : n - 1 = i
    · subst hin; simp [hv]
    · simp [BitVec.getLsbD_twoPow, hin]
  cases ch <;> simp only [State.selected, Bool.and_eq_true] at h <;> simp [State.select, key _ h.2]

theorem mem_nozzlesUpTo {max n : Nat} : n ∈ nozzlesUpTo max ↔ 1 ≤ n ∧ n ≤ max := by
  simp only [nozzlesUpTo, List.mem_map, List.mem_range]
  constructor
  · rintro ⟨a, ha, rfl⟩; omega
  · rintro ⟨h1, h2⟩; exact ⟨n - 1, by omega, by omega⟩

theorem nodup_nozzlesUpTo (max : Nat) : (nozzlesUpTo max).Nodup :=
  List.Nodup.map (fun a b h => by simpa using h) List.nodup_range

theorem mem_selectedNozzles {s : State} {ch : Channel} {n : Nat} :
    n ∈ selectedNozzles s ch ↔ s.selected ch n = true := by
  simp only [selectedNozzles, List.mem_filter, mem_nozzlesUpTo]
  exact ⟨fun h => h.2, fun h => ⟨selected_bounds h, h⟩⟩

theorem nodup_selectedNozzles (s : State) (ch : Channel) : (selectedNozzles s ch).Nodup :=
  (nodup_nozzlesUpTo _).filter _

/-! ## Offset registers -/

/-- Read after write on the offset registers. -/
theorem offsetOf_setOffset (s : State) (g g' : Signal) (k : Nat) :
    offsetOf (s.setOffset g k).off g' = if g' = g then k else offsetOf s.off g' := by
  cases g <;> cases g' <;> simp [State.setOffset, offsetOf]

theorem fits_iff {w : Nat} {o : Offsets} : o.fits w = true ↔ ∀ g : Signal, offsetOf o g < w := by
  constructor
  · intro h g
    simp only [Offsets.fits, Bool.and_eq_true, decide_eq_true_eq] at h
    cases g <;> simp only [offsetOf] <;> omega
  · intro h
    simp only [Offsets.fits, Bool.and_eq_true, decide_eq_true_eq]
    exact ⟨⟨⟨⟨⟨h .nc, h .ch⟩, h .lat⟩, h .ck⟩, h .sibl⟩, h .sicl⟩

/-! ## Slots of a buffer -/

theorem memWrite_length {b v : Bits} {i : Nat} (h : i + v.length ≤ b.length) : (memWrite b i v).length = b.length := by
  simp [memWrite]; omega

/-- Read after write on the slots of a buffer, for a write in bounds. -/
theorem getD_memWrite {b v : Bits} {i j : Nat} (h : i + v.length ≤ b.length) :
    (memWrite b i v).getD j false = if i ≤ j ∧ j < i + v.length then v.getD (j - i) false else b.getD j false := by
  have hti : (b.take i).length = i := by simp; omega
  simp only [memWrite, List.getD_eq_getElem?_getD, List.append_assoc]
  rcases Nat.lt_or_ge j i with hj | hj
  · rw [List.getElem?_append_left (by omega), if_neg (by omega), List.getElem?_take_of_lt hj]
  · rw [List.getElem?_append_right (by omega), hti]
    rcases Nat.lt_or_ge j (i + v.length) with hj' | hj'
    · rw [List.getElem?_append_left (by omega), if_pos ⟨hj, hj'⟩]
    · rw [List.getElem?_append_right (by omega), if_neg (by omega), List.getElem?_drop]
      congr 2; omega

/-- A read gives what a write of the same slots wrote. -/
theorem memRead_memWrite {b v : Bits} {i : Nat} (h : i + v.length ≤ b.length) :
    memRead (memWrite b i v) i v.length = v := by
  have hti : (b.take i).length = i := by simp; omega
  simp only [memRead, memWrite, List.append_assoc]
  rw [List.drop_append_of_le_length (by omega), List.drop_of_length_le (by omega), List.nil_append, List.take_left]

end Sys2Proof.Machine
end

