-- ==== Sys2Proof/Laws/Datapath.lean ====
section
/-! SUPPORT. The datapath by slots and samples: lengths, the literal phase program sample by sample, one lane of a word, and
what `CFG_WF` says of a single nozzle or a pair of nozzles. -/

namespace Sys2Proof

@[simp] theorem length_zeros (k : Nat) : (zeros k).length = k := by simp [zeros]

@[simp] theorem getElem?_getD_zeros (k i : Nat) : (zeros k)[i]?.getD false = false := by
  simp only [zeros, List.getElem?_replicate]
  split <;> rfl

theorem getD_zeros (k i : Nat) : (zeros k).getD i false = false := by simp

@[simp] theorem ones_zeros (k : Nat) : ones (zeros k) = 0 := by simp [ones, zeros, List.count_replicate]

@[simp] theorem ones_append (a b : Bits) : ones (a ++ b) = ones a + ones b := by simp [ones]

theorem length_rep (k : Nat) (p : Bits) : (rep k p).length = k * p.length := by simp [rep]

/-- A sample of a concatenation. -/
theorem getD_append_bits (a b : Bits) (i : Nat) :
    (a ++ b).getD i false = if i < a.length then a.getD i false else b.getD (i - a.length) false := by
  simp only [List.getD_eq_getElem?_getD]
  split
  · rw [List.getElem?_append_left ‹_›]
  · rw [List.getElem?_append_right (by omega)]

/-- Two sequences of one length with the same samples are equal. -/
theorem bits_ext {a b : Bits} (h : a.length = b.length) (hs : ∀ i, i < a.length → a.getD i false = b.getD i false) :
    a = b := by
  apply List.ext_getElem h
  intro i h1 h2
  have := hs i h1
  simpa [List.getD_eq_getElem?_getD, h1, h2] using this

theorem getD_map_range (n : Nat) (f : Nat → Bool) (i : Nat) (h : i < n) :
    ((List.range n).map f).getD i false = f i := by
  simp [List.getD_eq_getElem?_getD, h]

/-- The ones of a buffer given by slots. -/
theorem ones_map_range (n : Nat) (f : Nat → Bool) : ones ((List.range n).map f) = ((List.range n).filter f).length := by
  simp only [ones, List.count, List.countP_map, ← List.countP_eq_length_filter]
  exact List.countP_congr fun x _ => by simp

namespace Machine

@[simp] theorem length_bufK (tb : Tables) (s : State) : (bufK tb s).length = 256 := by simp [bufK, Config.selSlots]

@[simp] theorem length_bufC (tb : Tables) (s : State) : (bufC tb s).length = 256 := by simp [bufC, Config.selSlots]

@[simp] theorem length_qualSeq (tb : Tables) (q : Quality) : (qualSeq tb q).length = 64 := by
  simp [qualSeq, Config.qSlots]

theorem slotSetBy_iff {tb : Tables} {s : State} {ch : Channel} {i : Nat} :
    slotSetBy tb s ch i = true ↔ ∃ n, s.selected ch n = true ∧ inPair tb ch n i = true := by
  simp only [slotSetBy, List.any_eq_true, mem_selectedNozzles]

theorem inPair_iff {tb : Tables} {ch : Channel} {n i : Nat} :
    inPair tb ch n i = true ↔ i = tb.pairBase ch n ∨ i = tb.pairBase ch n + 1 := by
  simp [inPair]

/-- The bits of one lane of a word (44_word_packer.md R127). -/
theorem getLsbD_lane (w : Nat) (b : Bool) (k j : Nat) : (lane w b k).getLsbD j = (b && j == k && decide (j < w)) := by
  cases b
  · simp [lane]
  · have h1 : ∀ m, Nat.testBit 1 m = decide (m = 0) := fun m => by
      cases m with
      | zero => rfl
      | succ m => simp [Nat.testBit_succ]
    simp only [lane, Bool.toNat_true, BitVec.getLsbD_shiftLeft, BitVec.getLsbD_ofNat, h1]
    by_cases hjk : j = k
    · subst hjk
      simp
      omega
    · have hb : (j == k) = false := by simpa using hjk
      by_cases hlt : j < k
      · simp [hlt, hb]
      · simp [show ¬ j - k = 0 by omega, hb]

/-- A lane whose offset fits the word loses no bit. -/
theorem toNat_lane {w : Nat} (b : Bool) {k : Nat} (h : k < w) : (lane w b k).toNat = b.toNat <<< k := by
  have hlt : 2 ^ k < 2 ^ w := Nat.pow_lt_pow_right (by omega) h
  have h1 : 1 < 2 ^ w := Nat.one_lt_two_pow (by omega)
  cases b
  · simp [lane]
  · simp [lane, Nat.shiftLeft_eq, Nat.mod_eq_of_lt h1, Nat.mod_eq_of_lt hlt]

/-! ## What CFG_WF says, of the block and of nozzles -/

theorem apart_iff {p q : Nat} : apart p q = true ↔ p + 2 ≤ q ∨ q + 2 ≤ p := by simp [apart]

/-- The blocks a configuration makes: the one with its width and its reset offsets, if the tables pass the check. -/
theorem configure_eq_some_iff {tb : Tables} {w : Nat} {o : Offsets} {p : Params} :
    configure tb w o = some p ↔ tb.wf = true ∧ p.wordW = w ∧ p.offReset = o := by
  unfold configure
  constructor
  · intro h
    split at h
    · rename_i hc
      cases h
      exact ⟨(Bool.and_eq_true_iff.1 hc).1, rfl, rfl⟩
    · cases h
  · rintro ⟨h, rfl, rfl⟩
    exact dif_pos (Bool.and_eq_true_iff.2 ⟨h, p.wf⟩)

theorem wf_black {tb : Tables} (h : tb.wf = true) {n : Nat} (h1 : 1 ≤ n) (h2 : n ≤ 90) :
    tb.kmap n ≤ 254 ∧ tb.kmap n % 2 = 0 := by
  simp only [Tables.wf, Bool.and_eq_true, Tables.wfBlack, List.all_eq_true] at h
  have := h.1.1 n (mem_nozzlesUpTo.2 ⟨h1, h2⟩)
  simp only [decide_eq_true_eq, beq_iff_eq] at this
  exact this.1

theorem wf_black_apart {tb : Tables} (h : tb.wf = true) {n n' : Nat} (h1 : 1 ≤ n) (h2 : n ≤ 90) (h1' : 1 ≤ n')
    (h2' : n' ≤ 90) (hne : n ≠ n') : tb.kmap n + 2 ≤ tb.kmap n' ∨ tb.kmap n' + 2 ≤ tb.kmap n := by
  simp only [Tables.wf, Bool.and_eq_true, Tables.wfBlack, List.all_eq_true] at h
  have := (h.1.1 n (mem_nozzlesUpTo.2 ⟨h1, h2⟩)).2 n' (mem_nozzlesUpTo.2 ⟨h1', h2'⟩)
  simpa [hne, apart_iff] using this

theorem mem_colourNozzles {ch : Channel} {n : Nat} : (ch, n) ∈ colourNozzles ↔ ch ≠ .k ∧ 1 ≤ n ∧ n ≤ 30 := by
  simp only [colourNozzles, List.mem_flatMap, List.mem_map, mem_nozzlesUpTo, Config.nColour]
  constructor
  · rintro ⟨ch', hc, m, hm, hp⟩
    cases hp
    refine ⟨?_, hm⟩
    rintro rfl
    simp at hc
  · rintro ⟨hne, h⟩
    exact ⟨ch, by cases ch <;> simp_all, n, h, rfl⟩

theorem wf_colour {tb : Tables} (h : tb.wf = true) {ch : Channel} {n : Nat} (hc : ch ≠ .k) (h1 : 1 ≤ n) (h2 : n ≤ 30) :
    tb.pairBase ch n ≤ 254 := by
  simp only [Tables.wf, Bool.and_eq_true, Tables.wfColour, List.all_eq_true] at h
  simpa using (h.1.2 (ch, n) (mem_colourNozzles.2 ⟨hc, h1, h2⟩)).1

theorem wf_colour_apart {tb : Tables} (h : tb.wf = true) {ch ch' : Channel} {n n' : Nat} (hc : ch ≠ .k) (h1 : 1 ≤ n)
    (h2 : n ≤ 30) (hc' : ch' ≠ .k) (h1' : 1 ≤ n') (h2' : n' ≤ 30) (hne : (ch, n) ≠ (ch', n')) :
    tb.pairBase ch n + 2 ≤ tb.pairBase ch' n' ∨ tb.pairBase ch' n' + 2 ≤ tb.pairBase ch n := by
  simp only [Tables.wf, Bool.and_eq_true, Tables.wfColour, List.all_eq_true] at h
  have := (h.1.2 (ch, n) (mem_colourNozzles.2 ⟨hc, h1, h2⟩)).2 (ch', n') (mem_colourNozzles.2 ⟨hc', h1', h2'⟩)
  have hb : ((ch, n) == (ch', n')) = false := by simpa using hne
  rw [hb, Bool.false_or, apart_iff] at this
  exact this

theorem wf_quality {tb : Tables} (h : tb.wf = true) (q : Quality) : pairsOnly (tb.pattern q) = true := by
  simp only [Tables.wf, Bool.and_eq_true, Tables.wfQuality, List.all_eq_true] at h
  exact h.2 q (by cases q <;> simp)

end Machine

end Sys2Proof
end

