-- ==== Sys2Proof/Laws/Encoding.lean ====
section
/-! SUPPORT. The fields of an encoded word, and the codes of the enumerations. -/

namespace Sys2Proof

/-- The bits of a word in the format, field by field. -/
theorem getLsbD_formatC (op a : BitVec 4) (imm : BitVec 8) (i : Nat) :
    (formatC op a imm).getLsbD i =
      if i < 8 then imm.getLsbD i else if i < 12 then a.getLsbD (i - 8) else op.getLsbD (i - 12) := by
  simp only [formatC, BitVec.getLsbD_or, BitVec.getLsbD_shiftLeft, BitVec.getLsbD_setWidth]
  by_cases h8 : i < 8
  · simp [h8, show i < 12 by omega, show i < 16 by omega]
  · by_cases h12 : i < 12
    · simp [h8, h12, show i < 16 by omega, show i - 8 < 16 by omega, BitVec.getLsbD_of_ge imm i (by omega)]
    · by_cases h16 : i < 16
      · simp [h8, h12, h16, show i - 12 < 16 by omega, BitVec.getLsbD_of_ge imm i (by omega),
          BitVec.getLsbD_of_ge a (i - 8) (by omega)]
      · simp [h8, h12, h16, BitVec.getLsbD_of_ge imm i (by omega), BitVec.getLsbD_of_ge op (i - 12) (by omega)]

@[simp] theorem opField_formatC (op a : BitVec 4) (imm : BitVec 8) : opField (formatC op a imm) = op := by
  apply BitVec.eq_of_getLsbD_eq
  intro i hi
  rw [opField, BitVec.getLsbD_extractLsb', getLsbD_formatC, if_neg (by omega), if_neg (by omega),
    Nat.add_sub_cancel_left, decide_eq_true hi, Bool.true_and]

@[simp] theorem aField_formatC (op a : BitVec 4) (imm : BitVec 8) : aField (formatC op a imm) = a := by
  apply BitVec.eq_of_getLsbD_eq
  intro i hi
  rw [aField, BitVec.getLsbD_extractLsb', getLsbD_formatC, if_neg (by omega), if_pos (by omega),
    Nat.add_sub_cancel_left, decide_eq_true hi, Bool.true_and]

@[simp] theorem immField_formatC (op a : BitVec 4) (imm : BitVec 8) : immField (formatC op a imm) = imm := by
  apply BitVec.eq_of_getLsbD_eq
  intro i hi
  rw [immField, BitVec.getLsbD_extractLsb', getLsbD_formatC, if_pos (by omega), Nat.zero_add, decide_eq_true hi,
    Bool.true_and]

/-- A word is the format of its three fields (30_encoding.md R54). -/
theorem formatC_fields (c : CmdWord) : formatC (opField c) (aField c) (immField c) = c := by
  apply BitVec.eq_of_getLsbD_eq
  intro i hi
  rw [getLsbD_formatC]
  simp only [opField, aField, immField, BitVec.getLsbD_extractLsb']
  split
  · simp [*]
  · split
    · simp [show i - 8 < 4 by omega, show 8 + (i - 8) = i by omega]
    · simp [show i - 12 < 4 by omega, show 12 + (i - 12) = i by omega]

@[simp] theorem Channel.ofCode_code (ch : Channel) : Channel.ofCode ch.code = ch := by cases ch <;> rfl

@[simp] theorem Channel.code_ofCode (c : BitVec 2) : (Channel.ofCode c).code = c := by revert c; decide

@[simp] theorem Strategy.ofCode_code (m : Strategy) : Strategy.ofCode m.code = m := by cases m <;> rfl

@[simp] theorem Strategy.code_ofCode (m : BitVec 1) : (Strategy.ofCode m).code = m := by revert m; decide

namespace Machine

@[simp] theorem dropletOf_code (z : Droplet) : dropletOf z.code = some z := by cases z <;> rfl

@[simp] theorem qualityOf_code (q : Quality) : qualityOf q.code = some q := by cases q <;> rfl

@[simp] theorem signalOf_code (g : Signal) : signalOf g.code = some g := by cases g <;> rfl

theorem dropletOf_eq_some {sz : BitVec 2} {z : Droplet} : dropletOf sz = some z ↔ sz = z.code := by
  revert sz; cases z <;> decide

theorem qualityOf_eq_some {q : BitVec 3} {p : Quality} : qualityOf q = some p ↔ q = p.code := by
  revert q; cases p <;> decide

theorem signalOf_eq_some {s : BitVec 3} {g : Signal} : signalOf s = some g ↔ s = g.code := by
  revert s; cases g <;> decide

theorem dropletOf_eq_none {sz : BitVec 2} : dropletOf sz = none ↔ sz = 3 := by revert sz; decide

theorem qualityOf_eq_none {q : BitVec 3} : qualityOf q = none ↔ 5 < q.toNat := by revert q; decide

theorem signalOf_eq_none {s : BitVec 3} : signalOf s = none ↔ 5 < s.toNat := by revert s; decide

end Machine

end Sys2Proof
end

