-- ==== Sys2Proof/Laws/Lines.lean ====
section
/-! SUPPORT. The selection procedure, the lines of a run and the status view, slot by slot, sample by sample and bit by bit. -/

namespace Sys2Proof.Machine

/-- The pair of a selected nozzle lies in its buffer (40_slot_mapping.md R77). -/
theorem pairBase_le {tb : Tables} (h : tb.wf = true) {s : State} {ch n} (hs : s.selected ch n = true) :
    tb.pairBase ch n ≤ 254 := by
  have := selected_bounds hs
  cases ch with
  | k => exact (wf_black h this.1 this.2).1
  | c => exact wf_colour h (by simp) this.1 this.2
  | m => exact wf_colour h (by simp) this.1 this.2
  | y => exact wf_colour h (by simp) this.1 this.2

/-- All that a loop of the builder does: it keeps the length, and sets the pairs of its nozzles (41_selection_builder.md R81). -/
theorem markPairs_spec (tb : Tables) (ch : Channel) (ns : List Nat) :
    ∀ b : Bits, b.length = 256 → (∀ n ∈ ns, tb.pairBase ch n ≤ 254) →
      (markPairs tb ch ns b).length = 256 ∧
      ∀ i, i < 256 → ((markPairs tb ch ns b).getD i false = true ↔
        b.getD i false = true ∨ ∃ n ∈ ns, i = tb.pairBase ch n ∨ i = tb.pairBase ch n + 1) := by
  induction ns with
  | nil => intro b hb _; simp [markPairs, hb]
  | cons n ns ih =>
    intro b hb hn
    have hbnd : tb.pairBase ch n + [true,true].length ≤ b.length := by have := hn n (by simp); simp; omega
    have hl : (memWrite b (tb.pairBase ch n) [true, true]).length = 256 := by rw [memWrite_length hbnd, hb]
    obtain ⟨h1, h2⟩ := ih (memWrite b (tb.pairBase ch n) [true, true]) hl (fun m hm => hn m (by simp [hm]))
    refine ⟨h1, fun i hi => ?_⟩
    have := h2 i hi
    show (markPairs tb ch ns (memWrite b (tb.pairBase ch n) [true, true])).getD i false = true ↔ _
    rw [this, getD_memWrite hbnd]
    simp only [List.length_cons, List.length_nil, List.mem_cons]
    constructor
    · rintro (h | ⟨m, hm, h⟩)
      · split at h
        · right; exact ⟨n, .inl rfl, by omega⟩
        · exact .inl h
      · exact .inr ⟨m, .inr hm, h⟩
    · rintro (h | ⟨m, rfl | hm, h⟩)
      · left; split
        · rename_i hc
          have : i - tb.pairBase ch n = 0 ∨ i - tb.pairBase ch n = 1 := by omega
          rcases this with h | h <;> simp [h]
        · exact h
      · left; rw [if_pos (by omega)]
        have : i - tb.pairBase ch m = 0 ∨ i - tb.pairBase ch m = 1 := by omega
        rcases this with h | h <;> simp [h]
      · exact .inr ⟨m, hm, h⟩

theorem length_ckRaw (z : Droplet) : (ckRaw z).length = 1037 + extraSample z := by
  simp [ckRaw, length_rep, Config.burst, Config.burstQ, Config.pat, Config.wait]; omega

theorem length_serialRaw (z : Droplet) {sel q : Bits} (h : sel.length = 256) (hq : q.length = 64) :
    (serialRaw z sel q).length = 1038 := by
  have h1 : (firstSelection z sel).length = 256 := by unfold firstSelection; split <;> simp [h, Config.selSlots]
  have h2 : (secondSelection z sel).length = 256 := by unfold secondSelection; split <;> simp [h, Config.selSlots]
  simp [serialRaw, h1, h2, hq, Config.wait]

theorem zeroFill_of_length {b : Bits} (h : b.length = 1038) : zeroFill b = b := by simp [zeroFill, h, Config.runLength, zeros]

/-- The literal phase program of a serial line, sample by sample (43_phase_sequencer.md R96, R110). -/
theorem serialRaw_eq (z : Droplet) (f g : Nat → Bool) :
    serialRaw z ((List.range 256).map f) ((List.range 64).map g) = (List.range 1038).map (serialLine z f g) := by
  apply bits_ext
  · rw [length_serialRaw] <;> simp
  · intro i hi
    rw [length_serialRaw z (by simp) (by simp)] at hi
    rw [getD_map_range _ _ _ hi]
    have h1 : (firstSelection z ((List.range 256).map f)).length = 256 := by unfold firstSelection; split <;> simp [Config.selSlots]
    have h2 : (secondSelection z ((List.range 256).map f)).length = 256 := by unfold secondSelection; split <;> simp [Config.selSlots]
    simp only [serialRaw, getD_append_bits, List.length_append, h1, h2, length_zeros, Config.wait, List.length_map,
      List.length_range, getD_zeros, serialLine]
    rcases Nat.lt_or_ge i 256 with h | h
    · simp only [show i < 256+230+256+230+64 by omega, show i < 256+230+256+230 by omega, show i < 256+230+256 by omega, show i < 256+230 by omega, h, if_true, true_and]
      unfold firstSelection
      by_cases hf : firstPhase z = true
      · rw [if_pos hf, if_pos hf, getD_map_range _ _ _ h]
      · rw [if_neg hf, if_neg hf, getD_zeros]
        rw [if_neg (by omega), if_neg (by omega)]
    · rw [if_neg (show ¬ (i < 256 ∧ _) from fun hx => absurd hx.1 (by omega))]
      by_cases h486 : i < 486
      · rw [if_neg (show ¬ (486 ≤ i ∧ _) from fun hx => absurd hx.1 (by omega)), if_neg (show ¬ (972 ≤ i ∧ _) from fun hx => absurd hx.1 (by omega))]
        rw [if_pos (by omega), if_pos (by omega), if_pos (by omega), if_pos (by omega), if_neg (by omega)]
      · by_cases h742 : i < 742
        · rw [if_pos (by omega), if_pos (by omega), if_pos (by omega), if_neg (by omega)]
          unfold secondSelection
          by_cases hf : secondPhase z = true
          · rw [if_pos hf, if_pos ⟨by omega, h742, hf⟩, getD_map_range _ _ _ (by omega)]
          · rw [if_neg hf, getD_zeros, if_neg (fun hx => hf hx.2.2), if_neg (by omega)]
        · rw [if_neg (show ¬ (486 ≤ i ∧ _) from fun hx => absurd hx.2.1 (by omega))]
          by_cases h972 : i < 972
          · rw [if_neg (show ¬ (972 ≤ i ∧ _) from fun hx => absurd hx.1 (by omega))]
            rw [if_pos (by omega), if_pos (by omega), if_neg (by omega)]
          · by_cases h1036 : i < 1036
            · rw [if_pos (show (972 ≤ i ∧ _) from ⟨by omega, h1036⟩)]
              rw [if_pos (by omega), if_neg (by omega), getD_map_range _ _ _ (by omega)]
            · rw [if_neg (show ¬ (972 ≤ i ∧ _) from fun hx => absurd hx.2 (by omega))]
              rw [if_neg (by omega)]

set_option maxRecDepth 20000 in
/-- The same of the clock line (R96, R111). -/
theorem ckRaw_eq (z : Droplet) : zeroFill (ckRaw z) = (List.range 1038).map (clockLine z) := by
  cases z <;> decide +kernel

theorem runLines_sibl (tb s) : (runLines tb s).sibl = (List.range 1038).map (sample tb s .sibl) := by
  show zeroFill (serialRaw s.size (bufK tb s) (qualSeq tb s.qual)) = _
  rw [zeroFill_of_length (length_serialRaw _ (by simp) (by simp))]
  exact serialRaw_eq _ _ _

theorem runLines_sicl (tb s) : (runLines tb s).sicl = (List.range 1038).map (sample tb s .sicl) := by
  show zeroFill (serialRaw s.size (bufC tb s) (qualSeq tb s.qual)) = _
  rw [zeroFill_of_length (length_serialRaw _ (by simp) (by simp))]
  exact serialRaw_eq _ _ _

theorem runLines_ck (tb s) : (runLines tb s).ck = (List.range 1038).map (sample tb s .ck) :=
  ckRaw_eq _

/-- A control line: all zero (R106). -/
theorem zeroFill_nil : zeroFill [] = (List.range 1038).map (fun _ => false) := by
  rw [List.map_const', List.length_range]
  unfold zeroFill zeros Config.runLength
  rw [List.nil_append, List.length_nil, Nat.sub_zero]

/-- The bits of the status view (10_state.md R28). -/
theorem getLsbD_statusView (s : State) (i : Nat) : (statusView s).getLsbD i =
    if i < 2 then s.st.code.getLsbD i else if i < 3 then s.done else if i < 6 then s.err.code.getLsbD (i - 3)
    else if i < 16 then false else s.errcmd.getLsbD (i - 16) := by
  simp only [statusView, BitVec.getLsbD_or, BitVec.getLsbD_shiftLeft, BitVec.getLsbD_setWidth]
  by_cases h2 : i < 2
  · simp [h2, show i < 32 by omega, show i < 16 by omega, show i < 3 by omega]
  · rw [BitVec.getLsbD_of_ge s.st.code i (by omega)]
    by_cases h3 : i < 3
    · obtain rfl : i = 2 := by omega
      cases s.done <;> simp
    · rw [BitVec.getLsbD_of_ge (BitVec.ofBool s.done) (i - 2) (by omega)]
      by_cases h6 : i < 6
      · simp [h2, h3, h6, show i < 32 by omega, show i < 16 by omega, show i - 3 < 32 by omega]
      · rw [BitVec.getLsbD_of_ge s.err.code (i - 3) (by omega)]
        by_cases h16 : i < 16
        · simp [h2, h3, h6, h16]
        · by_cases h32 : i < 32
          · simp [h2, h3, h6, h16, h32, show i - 16 < 32 by omega]
          · simp [h2, h3, h6, h16, h32, BitVec.getLsbD_of_ge s.errcmd (i - 16) (by omega)]

end Sys2Proof.Machine
end

