-- ==== Sys2Proof/Laws/PerInstr.lean ====
section
/-! SUPPORT. Statements about every command, one lemma per constructor. -/

namespace Sys2Proof.Laws.TableRow

/-- The command's word selects the row of the opcode map that has its mnemonic (spec/30_encoding.md R56). -/
def Statement (i : Instr) : Prop :=
  i.wf = true → ∃ r ∈ opcodeRows, r.selects (encode i) = true ∧ r.mnemonic = i.mnemonic

theorem nop : Statement .nop := fun _ => ⟨⟨"NOP", 0x0000#16, 0xFFFF#16⟩, by decide⟩

theorem clr : Statement .clr := fun _ => ⟨⟨"CLR", 0x1000#16, 0xFFFF#16⟩, by decide⟩

theorem sel (ch : Channel) (n : BitVec 8) : Statement (.sel ch n) := fun _ =>
  ⟨⟨"SEL", 0x2000#16, 0xFC00#16⟩, by decide, by cases ch <;> revert n <;> decide, rfl⟩

theorem size (sz : BitVec 2) : Statement (.size sz) := fun _ =>
  ⟨⟨"SIZE", 0x3000#16, 0xFFFC#16⟩, by decide, by revert sz; decide, rfl⟩

theorem qual (q : BitVec 3) : Statement (.qual q) := fun _ =>
  ⟨⟨"QUAL", 0x4000#16, 0xFFF8#16⟩, by decide, by revert q; decide, rfl⟩

theorem offs (s : BitVec 3) (k : BitVec 8) : Statement (.offs s k) := fun _ =>
  ⟨⟨"OFFS", 0x5000#16, 0xF800#16⟩, by decide, by revert s k; decide, rfl⟩

theorem strat (m : Strategy) : Statement (.strat m) := fun _ =>
  ⟨⟨"STRAT", 0x6000#16, 0xFFFE#16⟩, by decide, by cases m <;> decide, rfl⟩

theorem start : Statement .start := fun _ => ⟨⟨"START", 0x7000#16, 0xFFFF#16⟩, by decide⟩

theorem ack : Statement .ack := fun _ => ⟨⟨"ACK", 0x8000#16, 0xFFFF#16⟩, by decide⟩

end Sys2Proof.Laws.TableRow
end

