-- ==== Sys2Proof/Laws/Step.lean ====
section
/-! SUPPORT. What one step can do, said once: the effects of the commands, the outcomes of `exec`, of a command step and of a
clock edge, by inversion. -/

namespace Sys2Proof.Machine

/-- The effect of each command that raises nothing, in `IDLE` (45_commands.md R132 to R144). -/
inductive Effect : Instr → State → State → Prop where
  | nop (s : State) : Effect .nop s s
  | clr (s : State) : Effect .clr s s.clearSets
  | sel (s : State) (ch : Channel) (n : BitVec 8) (h1 : 1 ≤ n.toNat) (h2 : n.toNat ≤ nozzleMax ch) :
      Effect (.sel ch n) s (s.select ch n.toNat)
  | size (s : State) (z : Droplet) : Effect (.size z.code) s { s with size := z }
  | qual (s : State) (q : Quality) : Effect (.qual q.code) s { s with qual := q }
  | offs (s : State) (g : Signal) (k : BitVec 8) (h : k.toNat < s.params.wordW) :
      Effect (.offs g.code k) s (s.setOffset g k.toNat)
  | strat (s : State) : Effect (.strat .a) s { s with strat := .a }
  | start (s : State) : Effect .start s s.startRun
  | ack (s : State) : Effect .ack s (acknowledge s)

theorem nozzleValid_iff {ch : Channel} {n : BitVec 8} :
    nozzleValid ch n = true ↔ 1 ≤ n.toNat ∧ n.toNat ≤ nozzleMax ch := by
  simp only [nozzleValid, Bool.and_eq_true, decide_eq_true_eq]

/-- In `IDLE` a command raises its operand's error, or has its effect. -/
theorem exec_idle (i : Instr) {s : State} (h : s.st = .idle) :
    (∃ e, operandError s.params.wordW i = some e ∧ exec i s = .next (raise e (encode i) s)) ∨
    (operandError s.params.wordW i = none ∧ ∃ s', exec i s = .next s' ∧ Effect i s s') := by
  cases i with
  | nop => exact .inr ⟨rfl, s, by simp [exec, execNop, whenIdle_of_idle h], .nop s⟩
  | clr => exact .inr ⟨rfl, _, by simp [exec, execClr, whenIdle_of_idle h], .clr s⟩
  | sel ch n =>
    by_cases hv : nozzleValid ch n = true
    · obtain ⟨h1, h2⟩ := nozzleValid_iff.1 hv
      exact .inr ⟨by simp [operandError, hv], _, by simp [exec, execSel, whenIdle_of_idle h, hv], .sel s ch n h1 h2⟩
    · exact .inl ⟨.valNozzle, by simp [operandError, hv], by simp [exec, execSel, whenIdle_of_idle h, hv]⟩
  | size sz =>
    rcases hz : dropletOf sz with _ | z
    · rw [dropletOf_eq_none] at hz
      subst hz
      exact .inl ⟨.cfgSize, rfl, by simp [exec, execSize, whenIdle_of_idle h, dropletOf]⟩
    · obtain rfl := dropletOf_eq_some.1 hz
      exact .inr ⟨by cases z <;> rfl, _, by simp [exec, execSize, whenIdle_of_idle h], .size s z⟩
  | qual q =>
    rcases hq : qualityOf q with _ | p
    · exact .inl ⟨.cfgQuality, by simp [operandError, qualityOf_eq_none.1 hq],
        by simp [exec, execQual, whenIdle_of_idle h, hq]⟩
    · obtain rfl := qualityOf_eq_some.1 hq
      exact .inr ⟨by cases p <;> rfl, _, by simp [exec, execQual, whenIdle_of_idle h], .qual s p⟩
  | offs sg k =>
    rcases hg : signalOf sg with _ | g
    · exact .inl ⟨.illegalCmd, by simp [operandError, signalOf_eq_none.1 hg],
        by simp [exec, execOffs, offsAt, whenIdle_of_idle h, hg]⟩
    · obtain rfl := signalOf_eq_some.1 hg
      have hle : ¬ 5 < g.code.toNat := by cases g <;> decide
      by_cases hk : k.toNat < s.params.wordW
      · exact .inr ⟨by simp [operandError, hle, show ¬ s.params.wordW ≤ k.toNat by omega], _,
          by simp [exec, execOffs, offsAt, whenIdle_of_idle h, offsetFits, hk], .offs s g k hk⟩
      · exact .inl ⟨.cfgOffset, by simp [operandError, hle, show s.params.wordW ≤ k.toNat by omega],
          by simp [exec, execOffs, offsAt, whenIdle_of_idle h, offsetFits, hk]⟩
  | strat m =>
    cases m with
    | a => exact .inr ⟨rfl, _, by simp [exec, execStrat, whenIdle_of_idle h, strategyImplemented], .strat s⟩
    | b =>
      exact .inl ⟨.cfgStrategy, rfl,
        by simp [exec, execStrat, whenIdle_of_idle h, strategyImplemented, Config.hasStrategyB]⟩
  | start => exact .inr ⟨rfl, _, by simp [exec, execStart, whenIdle_of_idle h], .start s⟩
  | ack => exact .inr ⟨rfl, _, by simp [exec, execAck, h], .ack s⟩

/-- In `ERROR` only ACK is executed (45_commands.md R130, R145). -/
theorem exec_error (i : Instr) {s : State} (h : s.st = .error) :
    exec i s = .next (if i = .ack then acknowledge s else s) := by
  cases i <;> simp [exec, execNop, execClr, execSel, execSize, execQual, execOffs, offsAt, execStrat, execStart, execAck,
    whenIdle_of_error h, h]

/-- In `RUN` a command is held: nothing changes (45_commands.md R129; log 10). -/
theorem exec_run (i : Instr) {s : State} (h : s.st = .run) : exec i s = .next s := by
  cases i <;> simp [exec, execNop, execClr, execSel, execSize, execQual, execOffs, offsAt, execStrat, execStart, execAck,
    whenIdle_of_run h, h]

/-- `exec` always answers a next state. -/
theorem exec_next (i : Instr) (s : State) : ∃ s', exec i s = .next s' := by
  cases h : s.st with
  | idle => rcases exec_idle i h with ⟨e, _, he⟩ | ⟨_, s', he, _⟩ <;> exact ⟨_, he⟩
  | error => exact ⟨_, exec_error i h⟩
  | run => exact ⟨_, exec_run i h⟩

/-- Every state a command can lead to, outside `RUN`. -/
theorem exec_cases {i : Instr} {s s' : State} (hr : s.st ≠ .run) (h : exec i s = .next s') :
    (s.st = .idle ∧ ∃ e, operandError s.params.wordW i = some e ∧ s' = raise e (encode i) s) ∨
    (s.st = .idle ∧ operandError s.params.wordW i = none ∧ Effect i s s') ∨
    (s.st = .error ∧ i = .ack ∧ s' = acknowledge s) ∨
    (s.st = .error ∧ i ≠ .ack ∧ s' = s) := by
  cases hs : s.st with
  | idle =>
    rcases exec_idle i hs with ⟨e, he, hn⟩ | ⟨he, t, hn, hf⟩ <;> (rw [hn] at h; cases h)
    · exact .inl ⟨rfl, e, he, rfl⟩
    · exact .inr (.inl ⟨rfl, he, hf⟩)
  | run => exact absurd hs hr
  | error =>
    rw [exec_error i hs] at h
    cases h
    by_cases hi : i = .ack
    · exact .inr (.inr (.inl ⟨rfl, hi, by simp [hi]⟩))
    · exact .inr (.inr (.inr ⟨rfl, hi, by simp [hi]⟩))

/-- A command neither reads nor writes what is outside the block. -/
theorem exec_outside (i : Instr) {s t : State} (cmds : List CmdWord) (es : List Edge) (h : exec i s = .next t) :
    exec i { s with hostCmds := cmds, edges := es } = .next { t with hostCmds := cmds, edges := es } := by
  by_cases hr : s.st = .run
  · rw [exec_run i hr] at h; cases h; exact exec_run i hr
  · rcases exec_cases hr h with ⟨hs, e, he, rfl⟩ | ⟨hs, he, hf⟩ | ⟨hs, rfl, rfl⟩ | ⟨hs, hi, rfl⟩
    · rcases exec_idle i (s := { s with hostCmds := cmds, edges := es }) hs with ⟨e', he', hn⟩ | ⟨he', _⟩
      · obtain rfl := Option.some.inj (he.symm.trans he'); exact hn
      · exact nomatch he.symm.trans he'
    · cases hf with
      | sel _ ch n h1 h2 =>
        have hv := nozzleValid_iff.2 ⟨h1, h2⟩
        cases ch <;> simp [exec, execSel, whenIdle, hs, hv, State.select]
      | offs _ g k hk => cases g <;> simp [exec, execOffs, offsAt, whenIdle, hs, offsetFits, hk, State.setOffset]
      | _ => simp [exec, execNop, execClr, execSize, execQual, execStrat, execStart, execAck, whenIdle, hs,
          State.clearSets, State.startRun, acknowledge, strategyImplemented]
    · rw [exec_error _ hs] at h; exact exec_error _ hs
    · exact (exec_error i (s := { t with hostCmds := cmds, edges := es }) hs).trans (by rw [if_neg hi])

/-- A command step always answers a next state. -/
theorem commandStep_next (c : CmdWord) (s : State) : ∃ s', commandStep c s = .next s' := by
  unfold commandStep
  split
  · exact exec_next _ _
  · cases h : s.st <;> simp [illegalWord, whenIdle, h]

/-- Every state a clock edge can lead to. -/
theorem step_cases {s s' : State} (h : step s = .next s') :
    (s.edge.rst = true ∧ s' = resetBlock s.pastEdge) ∨
    (s.edge.rst = false ∧ s.st = .run ∧ s.strat = .a ∧ s.t.toNat < Config.runLength ∧
      ((s.edge.wReady = true ∧ s' = emitStep s.pastEdge) ∨ (s.edge.wReady = false ∧ s' = s.pastEdge))) ∨
    (s.edge.rst = false ∧ s.st ≠ .run ∧
      ((∃ c, s.offeredCmd = some c ∧ commandStep c s.pastEdge.consumeCmd = .next s') ∨
        (s.offeredCmd = none ∧ s' = s.pastEdge))) := by
  have hcmd : ∀ o, commandEdge o s.pastEdge = .next s' →
      (∃ c, o = some c ∧ commandStep c s.pastEdge.consumeCmd = .next s') ∨ (o = none ∧ s' = s.pastEdge) := by
    intro o ho
    cases o with
    | none => cases ho; exact .inr ⟨rfl, rfl⟩
    | some c => exact .inl ⟨c, rfl, ho⟩
  cases hr : s.edge.rst with
  | true =>
    simp only [step, clockEdge, hr, if_true] at h
    cases h
    exact .inl ⟨rfl, rfl⟩
  | false =>
    simp only [step, clockEdge, hr, Bool.false_eq_true, if_false] at h
    cases hs : s.st with
    | idle => rw [hs] at h; exact .inr (.inr ⟨rfl, by simp, hcmd _ h⟩)
    | error => rw [hs] at h; exact .inr (.inr ⟨rfl, by simp, hcmd _ h⟩)
    | run =>
      simp only [hs, runEdge, pastEdge_strat, pastEdge_t] at h
      by_cases hb : s.strat = .b
      · rw [if_pos hb] at h; cases h
      · by_cases ht : Config.runLength ≤ s.t.toNat
        · rw [if_neg hb, if_pos ht] at h; cases h
        · rw [if_neg hb, if_neg ht] at h
          have ha : s.strat = .a := by cases hst : s.strat <;> simp_all
          refine .inr (.inl ⟨rfl, rfl, ha, by omega, ?_⟩)
          cases hw : s.edge.wReady <;> simp only [hw, if_true, Bool.false_eq_true, if_false] at h <;> cases h
          · exact .inr ⟨rfl, rfl⟩
          · exact .inl ⟨rfl, rfl⟩

/-- A clock edge in `RUN`, in a state of R33: emit or stall. -/
theorem step_run {s : State} (hr : s.edge.rst = false) (hs : s.st = .run) (ha : s.strat = .a)
    (ht : s.t.toNat < Config.runLength) :
    step s = .next (if s.edge.wReady then emitStep s.pastEdge else s.pastEdge) := by
  have ht' : ¬ Config.runLength ≤ s.t.toNat := by omega
  simp only [step, clockEdge, hr, hs, runEdge, pastEdge_strat, pastEdge_t, ha, ht']
  cases s.edge.wReady <;> simp

/-- A clock edge outside `RUN` with a word offered: a command step. -/
theorem step_command {s : State} {c : CmdWord} {rest : List CmdWord} (hr : s.edge.rst = false) (ho : s.edge.offer = true)
    (hs : s.st ≠ .run) (hc : s.hostCmds = c :: rest) : step s = commandStep c s.pastEdge.consumeCmd := by
  cases h : s.st <;> simp_all [step, clockEdge, State.offeredCmd, commandEdge]

/-! ## Several steps -/

theorem runSteps_succ_of_next {s t : State} (n : Nat) (h : step s = .next t) : runSteps (n + 1) s = runSteps n t := by
  simp only [runSteps, h]

/-- A run of `m + n` steps is a run of `m` and then of `n`. -/
theorem runSteps_add {m : Nat} : ∀ {n : Nat} {s t : State}, runSteps m s = .next t → runSteps (m + n) s = runSteps n t := by
  induction m with
  | zero => intro n s t h; cases h; rw [Nat.zero_add]
  | succ m ih =>
    intro n s t h
    cases hs : step s with
    | next u =>
      rw [runSteps_succ_of_next m hs] at h
      rw [Nat.add_right_comm, runSteps_succ_of_next _ hs, ih h]
    | fault f => exact nomatch f
    | refused r => simp [runSteps, hs] at h

/-- A predicate that every step keeps holds after any number of steps. -/
theorem runSteps_keeps {P : State → Prop} (hP : ∀ s s', P s → step s = .next s' → P s') (n : Nat) :
    ∀ s s', P s → runSteps n s = .next s' → P s' := by
  induction n with
  | zero => intro s s' h hr; cases hr; exact h
  | succ n ih =>
    intro s s' h hr
    cases hx : step s with
    | next t => rw [runSteps_succ_of_next n hx] at hr; exact ih t s' (hP s t h hx) hr
    | fault f => exact nomatch f
    | refused r => simp [runSteps, hx] at hr

/-- `runSteps` is the host's `run` of this machine. -/
theorem runSteps_eq_core_run (n : Nat) : ∀ s : State, runSteps n s = Sys2Proof.core.run n s := by
  induction n with
  | zero => intro s; rfl
  | succ n ih =>
    intro s
    have hc : Sys2Proof.core.step s = step s := rfl
    simp only [runSteps, Host.Core.run, hc]
    cases step s with
    | next t => exact ih t
    | fault f => rfl
    | refused r => rfl

/-! ## Delivered commands -/

theorem deliver_nil (s : State) : deliver [] s = .next s := rfl

/-- Delivering a list of commands is executing the first and delivering the rest. -/
theorem deliver_cons {i : Instr} (is : List Instr) {s t : State} (hd : decode (encode i) = some i) (hs : s.st ≠ .run)
    (h : exec i s = .next t) : deliver (i :: is) s = deliver is t := by
  have ht : ({ t with hostCmds := s.hostCmds, edges := s.edges } : State) = t := by
    have := exec_outside i s.hostCmds s.edges h
    rw [h] at this; exact (Host.Outcome.next.inj this).symm
  have hstep : step { s with
      hostCmds := (i :: is).map encode ++ s.hostCmds
      edges := List.replicate (is.length + 1) Edge.clear ++ s.edges } =
      .next { t with
        hostCmds := is.map encode ++ s.hostCmds, edges := List.replicate is.length Edge.clear ++ s.edges } := by
    refine (step_command (s := { s with
      hostCmds := (i :: is).map encode ++ s.hostCmds
      edges := List.replicate (is.length + 1) Edge.clear ++ s.edges }) rfl rfl hs rfl).trans ?_
    rw [commandStep, hd]
    have hx := exec_outside i (is.map encode ++ s.hostCmds) (List.replicate is.length Edge.clear ++ s.edges) h
    exact hx
  rw [deliver, List.length_cons, runSteps_succ_of_next _ hstep, deliver, ← ht]

/-- Delivering one list and then another. -/
theorem deliver_append (is js : List Instr) : ∀ {s t : State}, s.st ≠ .run →
    (∀ i ∈ is, decode (encode i) = some i ∧ i ≠ .start) → deliver is s = .next t → deliver (is ++ js) s = deliver js t := by
  induction is with
  | nil => intro s t _ _ h; cases h; rfl
  | cons i is ih =>
    intro s t hs hd h
    obtain ⟨u, hu⟩ := exec_next i s
    have hi := hd i (by simp)
    rw [deliver_cons is hi.1 hs hu] at h
    rw [List.cons_append, deliver_cons (is ++ js) hi.1 hs hu]
    refine ih ?_ (fun j hj => hd j (by simp [hj])) h
    rcases exec_cases hs hu with ⟨_, e, _, rfl⟩ | ⟨h0, _, hf⟩ | ⟨_, _, rfl⟩ | ⟨h0, _, rfl⟩
    · simp [raise]
    · cases hf <;> simp_all [acknowledge]
    · simp [acknowledge]
    · exact hs

end Sys2Proof.Machine
end

