-- ==== Sys2Proof/Tests/Slice0.lean ====
section
/-! SUPPORT. Tests: well-formedness, decoding, each command once or twice, the datapath on the spec's example mapping, and for
every statement with hypotheses a state and operands that meet them. Every expected value comes from
spec/95_test_vectors.md or from the rule the comment names. -/

namespace Sys2Proof.Tests

open Sys2Proof Sys2Proof.Machine

/-! ## Helpers -/

/-- The next state of an outcome, if it is one. -/
def nextOf : Host.Outcome State Fault Refusal → Option State
  | .next s => some s
  | .fault _ => none
  | .refused _ => none

/-- A field of the next state of a command executed in the reset state. -/
def after {α : Type} (i : Instr) (f : State → α) : Option α := (nextOf (exec i State.reset)).map f

/-- The same of a word stepped on from the reset state. -/
def afterWord {α : Type} (w : Nat) (f : State → α) : Option α :=
  (nextOf (step (State.reset.withFetchWord 16 w))).map f

/-- `SEL K,91` has been raised (V-CMD-3). -/
def inError : State := raise .valNozzle 0x205B#16 State.reset

/-- A run at a time index, with the input ports at the edges to come. -/
def inRun (t : BitVec 11) (es : List Edge) : State := { State.reset with st := .run, t := t, edges := es }

/-- The reset state with sets. -/
def withSets (k : BitVec 90) (c m y : BitVec 30) : State := { State.reset with nsetK := k, nsetC := c, nsetM := m, nsetY := y }

/-- The reset state of a block with another word width and the default offsets. -/
def wide (w : Nat) (h : paramsWf w ⟨0, 1, 2, 3, 4, 5⟩ = true) : State := State.resetFor ⟨w, ⟨0, 1, 2, 3, 4, 5⟩, h⟩

/-- One ready edge, one edge at which the sink stalls. -/
def ready : Edge := ⟨false, true, true⟩

def stall : Edge := ⟨false, true, false⟩

theorem not_resets {s : State} (h : s.edge.rst = false) : ¬resets s := by simp [resets, h]

/-- The host offers words at clear edges. -/
def offering (cs : List CmdWord) (s : State) : State := { s with hostCmds := cs }

/-- Indices below a bound at which a sequence is 1. -/
def onesOf (n : Nat) (f : Nat → Bool) : List Nat := (List.range n).filter f

/-- Nozzles 1 and 61 of black selected, the sets of P1 (95_test_vectors.md part 3). -/
def p1Sets : State := withSets (1#90 ||| 1#90 <<< 60) 0 0 0

/-! ## Well-formedness and decoding -/

theorem test_wf_refuses_signal_six : (Instr.offs 6 0).wf = false := by decide

theorem test_wf_refuses_signal_seven : (Instr.offs 7 255).wf = false := by decide

theorem test_wf_admits_signal_five : (Instr.offs 5 255).wf = true := by decide

-- One word for each row of the opcode map, fields OP, A, IMM written bit by bit (30_encoding.md R54, R56).
theorem test_decode_nop : decode 0b0000_0000_00000000#16 = some .nop := by decide

theorem test_decode_clr : decode 0b0001_0000_00000000#16 = some .clr := by decide

theorem test_decode_sel : decode 0b0010_0010_00111101#16 = some (.sel .m 61) := by decide

theorem test_decode_size : decode 0b0011_0000_00000011#16 = some (.size 3) := by decide

theorem test_decode_qual : decode 0b0100_0000_00000110#16 = some (.qual 6) := by decide

theorem test_decode_offs : decode 0b0101_0101_00100000#16 = some (.offs 5 32) := by decide

theorem test_decode_strat : decode 0b0110_0000_00000001#16 = some (.strat .b) := by decide

theorem test_decode_start : decode 0b0111_0000_00000000#16 = some .start := by decide

theorem test_decode_ack : decode 0b1000_0000_00000000#16 = some .ack := by decide

-- 95_test_vectors.md section 2.6, the words marked ILLEGAL.
theorem test_decode_illegal :
    [0x0001#16, 0x1100#16, 0x2401#16, 0x3004#16, 0x4008#16, 0x5600#16, 0x5700#16, 0x5800#16, 0x6002#16, 0x7001#16, 0x8001#16,
      0x9000#16, 0xFFFF#16].all (fun c => decode c == none) = true := by decide

-- 95_test_vectors.md section 2.6, the other words.
theorem test_decode_vectors :
    decode 0x205B#16 = some (.sel .k 91) ∧ decode 0x2100#16 = some (.sel .c 0) ∧ decode 0x231E#16 = some (.sel .y 30) ∧
      decode 0x3002#16 = some (.size 2) ∧ decode 0x4005#16 = some (.qual 5) ∧ decode 0x5311#16 = some (.offs 3 17) ∧
      decode 0x6000#16 = some (.strat .a) := by decide

theorem test_encode_vectors :
    encode (.sel .k 61) = 0x203D#16 ∧ encode (.offs Signal.sicl.code 18) = 0x5512#16 ∧
      encode (.qual Quality.vsd3.code) = 0x4005#16 ∧ encode (.size Droplet.small.code) = 0x3000#16 := by decide

theorem test_table_word_takes_sixteen_bits : decodeTableWord 16 0x203D = some (.sel .k 61) := by decide

theorem test_table_word_refuses_more_bits : decodeTableWord 32 0x1203D = none := by decide

-- 30_encoding.md R66 and R67: lines and pseudo-commands, program P1 of 95_test_vectors.md.
theorem test_assembler_lines :
    asmLine (.sel .k 61) = "SEL K,61" ∧ asmLine (.offs 3 17) = "OFFS CK,17" ∧ asmLine (.size 3) = "SIZE 3" ∧
      asmWord 0x9000#16 = ".word 0x9000" := by decide

theorem test_gen_is_program_p1 :
    (gen Quality.economy.code Droplet.medium.code [1, 61] [] [] []).map encode =
      [0x1000#16, 0x2001#16, 0x203D#16, 0x4000#16, 0x3001#16, 0x6000#16, 0x7000#16] := by decide +kernel

/-! ## Commands, each from the reset state (95_test_vectors.md section 2.7) -/

theorem test_nop : after .nop id = some State.reset := by decide

theorem test_clr_empties_and_keeps_size :
    (nextOf (exec .clr { withSets 1 1 1 1 with size := .large })).map (fun s => (s.selected .k 1, s.selected .y 1, s.size)) =
      some (false, false, .large) := by decide

-- V-CMD-2: the last black nozzle.
theorem test_sel_last_black_nozzle :
    after (.sel .k 90) (fun s => (s.selected .k 90, s.selected .k 89, statusView s)) = some (true, false, 0) := by decide

-- V-CMD-6: one past the last cyan nozzle.
theorem test_sel_past_last_cyan_nozzle :
    afterWord 0x211F (fun s => (statusView s, s.nsetC)) = some (0x211F001A#32, 0) := by decide

-- V-CMD-9.
theorem test_size_large : afterWord 0x3002 (fun s => (s.size, s.st)) = some (.large, .idle) := by decide

-- V-CMD-10.
theorem test_size_three_raises : afterWord 0x3003 (fun s => (s.size, statusView s)) = some (.medium, 0x30030022#32) := by decide

-- V-CMD-11.
theorem test_qual_vsd3 : afterWord 0x4005 (fun s => (s.qual, s.st)) = some (.vsd3, .idle) := by decide

-- V-CMD-12.
theorem test_qual_six_raises : afterWord 0x4006 (fun s => (s.qual, statusView s)) = some (.economy, 0x4006000A#32) := by decide

-- V-CMD-13.
theorem test_offs_last_bit : afterWord 0x551F (fun s => s.off) = some ⟨0, 1, 2, 3, 4, 31⟩ := by decide

-- V-CMD-14.
theorem test_offs_past_last_bit :
    afterWord 0x5520 (fun s => (s.off.sicl, statusView s)) = some (5, 0x5520002A#32) := by decide

-- 00_scope.md R7: on a 64-bit block bit 32 is a bit of the word, and bit 64 is not.
theorem test_offs_on_a_wider_block :
    (nextOf (exec (.offs 5 32) (wide 64 rfl))).map (fun s => (s.off.sicl, s.st)) = some (32, .idle) ∧
      (nextOf (exec (.offs 5 64) (wide 64 rfl))).map (fun s => (s.off.sicl, s.err)) = some (5, .cfgOffset) := by decide

-- 00_scope.md R7: OFF_RESET is what reset gives.
theorem test_reset_gives_off_reset :
    (nextOf (step { State.resetFor ⟨20, ⟨8, 9, 10, 16, 17, 18⟩, rfl⟩ with
      off := ⟨0, 0, 0, 0, 0, 0⟩, edges := [⟨true, false, false⟩] })).map (fun s => s.off) = some ⟨8, 9, 10, 16, 17, 18⟩ := by
  decide

-- V-CMD-15.
theorem test_strat_a : afterWord 0x6000 (fun s => (s.strat, s.st)) = some (.a, .idle) := by decide

-- V-CMD-16.
theorem test_strat_b_raises : afterWord 0x6001 (fun s => (s.strat, statusView s)) = some (.a, 0x60010032#32) := by decide

-- V-CMD-18.
theorem test_start :
    afterWord 0x7000 (fun s => (statusView s, s.t, wValid false s, cmdReady false s)) = some (1#32, 0, true, false) := by decide

-- V-CMD-20: ACK clears DONE and leaves T.
theorem test_ack_clears_done :
    (nextOf (exec .ack { State.reset with t := 1038, done := true })).map (fun s => (s.done, s.t)) = some (false, 1038) := by
  decide

-- V-CMD-23.
theorem test_ack_leaves_the_error : nextOf (exec .ack inError) = some State.reset := by decide

-- V-CMD-17.
theorem test_illegal_word : afterWord 0x9000 statusView = some 0x9000003A#32 := by decide

-- V-CMD-21, V-CMD-22: START and an illegal word are discarded in ERROR.
theorem test_error_discards :
    nextOf (step (inError.withFetchWord 16 0x7000)) = some inError ∧
      nextOf (step (inError.withFetchWord 16 0x9000)) = some inError := by decide

/-! ## Clock edges -/

-- V-CMD-24: a word offered in RUN waits.
theorem test_run_holds_the_command :
    (nextOf (step (offering [0x2001#16] (inRun 5 [])))).map (fun s => (s.hostCmds, s.t, s.selected .k 1)) =
      some ([0x2001#16], 6, false) := by decide

-- V-CMD-19: the last word ends the run.
theorem test_last_word_ends_the_run :
    (nextOf (step (inRun 1037 []))).map (fun s => (s.st, s.t, s.done, statusView s)) =
      some (.idle, 1038, true, 4#32) := by decide

-- 70_reset_and_hazards.md R174: the sink stalls.
theorem test_sink_stalls :
    (nextOf (step (inRun 5 [⟨false, true, false⟩]))).map (fun s => (s.t, s.sinkWords.length, s.st)) =
      some (5, 0, .run) := by decide

-- 93_implementation_defined.md U15: a sink that never accepts.
theorem test_sink_that_never_accepts :
    (nextOf (runSteps 3 { inRun 5 [] with laterEdge := stall })).map (fun s => (s.t, s.sinkWords.length, s.st)) =
      some (5, 0, .run) := by decide

-- V-CMD-25: reset in a run.
theorem test_reset_in_a_run : nextOf (step (inRun 5 [⟨true, true, true⟩])) = some State.reset := by decide

-- V-CMD-18: the first word of a run on the reset arguments is 0x00.
theorem test_first_word : (wordAt 32 exTables State.reset 0).toNat = 0 := by decide

/-! ## The datapath, on `CFG_EX` (95_test_vectors.md sections 2.1 to 2.5) -/

-- V-MAP-11.
theorem test_example_mapping_is_well_formed : exTables.wf = true := by decide +kernel

-- V-MAP-1 to V-MAP-10.
theorem test_slots :
    [1, 2, 30, 31, 60, 61, 90].map (blackSlot exTables) = [1, 7, 175, 3, 177, 5, 179] ∧
      [1, 2, 30].map (cyanSlot exTables) = [0, 2, 58] ∧ [1, 2, 30].map (magentaSlot exTables) = [64, 66, 122] ∧
      [1, 2, 30].map (yellowSlot exTables) = [128, 130, 186] := by decide

-- V-MAP-13, V-MAP-14, V-MAP-15 and V-Q-3: one table refused for each constraint.
theorem test_equal_black_bases_refused :
    ({ exTables with kmap := fun n => if n = 2 then exTables.kmap 1 else exTables.kmap n } : Tables).wf = false := by decide +kernel

theorem test_overlapping_colour_pairs_refused :
    { exTables with
      cmap := fun n => if n = 1 then 10 else exTables.cmap n, mmap := fun n => if n = 1 then 11 else exTables.mmap n }.wf =
      false := by decide +kernel

theorem test_black_base_past_the_end_refused :
    ({ exTables with kmap := fun n => if n = 90 then 255 else exTables.kmap n } : Tables).wf = false := by decide +kernel

theorem test_isolated_quality_slot_refused : pairsOnly 1#64 = false ∧ pairsOnly Config.economyPattern = true := by
  decide +kernel

-- V-SEL-2, V-SEL-5.
theorem test_selection_black : onesOf 256 (selK exTables p1Sets) = [0, 1, 4, 5] := by decide +kernel

theorem test_selection_colour :
    onesOf 256 (selC exTables (withSets 0 1 2 (1#30 <<< 29))) = [0, 1, 66, 67, 186, 187] := by decide +kernel

-- The procedure of 41_selection_builder.md R81 gives the same slots.
theorem test_selection_procedure : selBuildProc exTables p1Sets = selBuild exTables p1Sets := by decide +kernel

-- V-Q-1.
theorem test_economy_pattern :
    onesOf 64 (qualSlot exTables .economy) = [40, 41, 50, 51, 52, 53, 54, 55, 56, 57] := by decide +kernel

-- V-CK-3, V-CK-6 (medium) and V-CK-10, V-CK-11, V-CK-13 (small); 484..493 etc.
theorem test_clock_medium :
    (List.range 10).map (fun i => clockLine .medium (484 + i)) =
        [false, false, false, true, true, false, false, true, true, false] ∧
      (List.range 6).map (fun i => clockLine .medium (1032 + i)) = [false, true, true, false, false, false] := by decide +kernel

theorem test_clock_small :
    (List.range 10).map (fun i => clockLine .small (484 + i)) =
        [false, false, false, false, true, true, false, false, true, true] ∧
      (List.range 8).map (fun i => clockLine .small (738 + i)) = [false, false, true, true, false, false, false, false] ∧
      (List.range 6).map (fun i => clockLine .small (1032 + i)) = [false, false, true, true, false, false] := by
  decide +kernel

-- V-SI-2 and V-SI-3.
theorem test_serial_large :
    onesOf 1038 (sample exTables { p1Sets with size := .large } .sibl) =
      [0, 1, 4, 5, 486, 487, 490, 491, 1012, 1013, 1022, 1023, 1024, 1025, 1026, 1027, 1028, 1029] := by decide +kernel

theorem test_serial_small :
    onesOf 1038 (sample exTables { p1Sets with size := .small } .sibl) =
      [486, 487, 490, 491, 1012, 1013, 1022, 1023, 1024, 1025, 1026, 1027, 1028, 1029] := by decide +kernel

/-- The vectors of V-PACK-1. -/
def packLines : Lines where
  nc := [true, false, false, true, false]
  ch := [false, true, false, true, false]
  lat := [false, false, true, true, false]
  ck := [false, true, true, false, false]
  sibl := [true, true, false, false, false]
  sicl := [false, false, false, true, true]

-- V-PACK-1, V-PACK-2.
theorem test_pack : (pack 32 packLines ⟨0, 1, 2, 3, 4, 5⟩).toOption = some [0x11#32, 0x1A#32, 0x0C#32, 0x27#32, 0x20#32] := by
  decide

theorem test_pack_unequal_lengths :
    (pack 32 { packLines with sicl := [false, false, false, true] } ⟨0, 1, 2, 3, 4, 5⟩).toOption = none := by decide

-- V-PACK-3: equal offsets OR.
theorem test_pack_equal_offsets :
    (List.range 8).map (fun t => (wordAt 32 exTables { withSets 1 0 0 0 with off := ⟨0, 1, 2, 4, 4, 5⟩ } t).toNat) =
      [0x10, 0x10, 0x10, 0, 0, 0x10, 0x10, 0] := by decide +kernel

-- Program P1: the sum of the 1038 words, and words of the quality phase.
theorem test_p1_words :
    ((List.range 1038).map fun t => (wordAt 32 exTables p1Sets t).toNat).sum = 2848 ∧
      [0, 1, 2, 1012, 1013, 1022, 1029, 1037].map (fun t => (wordAt 32 exTables p1Sets t).toNat) =
        [0x10, 0x18, 0x08, 0x30, 0x38, 0x38, 0x38, 0] := by decide +kernel

-- Program P3: moved offsets, small, all four channels.
theorem test_p3_words :
    ((List.range 1038).map fun t => (wordAt 32 exTables
      { withSets (1#90 <<< 30) 1 2 (1#30 <<< 29) with size := .small, off := ⟨8, 9, 10, 16, 17, 18⟩ } t).toNat).sum =
      24641536 := by decide +kernel

/-! ## Every instruction's word runs on the very next step -/

theorem test_fetch_word_replaces_a_run :
    (nextOf (step ((inRun 5 [⟨true, false, false⟩]).withFetchWord 16 0x3002))).map (fun s => (s.size, s.st)) =
      some (.large, .idle) := by decide

/-! ## Witnesses: for every statement with hypotheses, a state and operands that meet them -/

/-- A run with `STRAT = B`, which only the statement on stops speaks of. -/
def strategyBState : State := { inRun 0 [] with strat := .b }

theorem witness_EncodeThenDecodeGivesBack : ∀ i ∈ [Instr.offs 5 255, .sel .y 255, .size 3, .qual 7, .strat .b], i.wf = true := by
  decide

theorem witness_DecodeThenEncodeGivesBack : decode 0x55FF#16 = some (.offs 5 255) := by decide

-- Boundary words of each disjunct: both sides of it (30_encoding.md R58).
theorem witness_IllegalWords_disjuncts :
    [0x9000#16, 0x0001#16, 0x1800#16, 0x7001#16, 0x8800#16, 0x2400#16, 0x3100#16, 0x3004#16, 0x4100#16, 0x4008#16, 0x5800#16,
      0x6100#16, 0x6002#16, 0x5600#16, 0x57FF#16].all (fun c => decode c == none) = true ∧
      [0x8000#16, 0x0000#16, 0x23FF#16, 0x3003#16, 0x4007#16, 0x55FF#16, 0x6001#16].all (fun c => decode c != none) = true := by
  decide

theorem witness_IllegalWords_states : decode 0x9000#16 = none ∧ State.reset.st = .idle ∧ inError.st = .error := by decide

theorem witness_OpcodeRows : ∃ r ∈ opcodeRows, r.selects 0x5512#16 = true ∧ r.mnemonic = "OFFS" := by decide

-- 00_scope.md R8: on each side of each limit, WORD_W and OFF_RESET that pass, and that are refused.
theorem witness_ConfigurationsThatFailTheCheckAreRefused :
    cfgWf exTables 6 ⟨5, 5, 5, 5, 5, 5⟩ = true ∧ cfgWf exTables 256 ⟨255, 0, 0, 0, 0, 0⟩ = true ∧
      cfgWf exTables 5 ⟨0, 0, 0, 0, 0, 0⟩ = false ∧ cfgWf exTables 257 ⟨0, 0, 0, 0, 0, 0⟩ = false ∧
      cfgWf exTables 6 ⟨0, 1, 2, 3, 4, 6⟩ = false ∧ cfgWf { exTables with kmap := fun _ => 0 } 32 ⟨0, 1, 2, 3, 4, 5⟩ = false := by
  decide +kernel

theorem test_width_five_is_refused :
    (configure exTables 5 ⟨0, 0, 0, 0, 0, 0⟩).isSome = false ∧ (configure exTables 6 ⟨5, 5, 5, 5, 5, 5⟩).isSome = true := by
  decide +kernel

theorem witness_ResetHasPriority : (inRun 5 [⟨true, true, true⟩]).edge.rst = true := by decide

-- At the last word of a run, in ERROR and after reset.
theorem witness_StepKeepsTheInvariant :
    LegalState (inRun 1037 []) ∧ (∃ s', step (inRun 1037 []) = .next s') ∧ LegalState inError ∧
      (∃ s', step inError = .next s') ∧ LegalState State.reset :=
  ⟨by decide, ⟨_, rfl⟩, by decide, ⟨_, rfl⟩, by decide⟩

theorem witness_ReachableStatesAreLegal : ∃ s, Reachable s ∧ s.st = .run ∧ s.selected .k 90 = true :=
  ⟨_, ⟨2, Config.defaults, [encode (.sel .k 90), encode .start], [], Edge.clear, rfl⟩, rfl, by decide⟩

theorem witness_ReachableStatesAreLegal_error : ∃ s, Reachable s ∧ s.st = .error ∧ s.err = .valNozzle :=
  ⟨_, ⟨1, Config.defaults, [0x205B#16], [], Edge.clear, rfl⟩, rfl, rfl⟩

-- On a block of the least width, with a sink that never accepts.
theorem witness_ReachableStatesAreLegal_narrow :
    ∃ s, Reachable s ∧ s.st = .run ∧ s.params.wordW = 6 ∧ offsetOf s.off .nc = 5 ∧ s.sinkWords = [] :=
  ⟨_, ⟨4, ⟨6, ⟨5, 5, 5, 5, 5, 5⟩, rfl⟩, [encode .start], [], stall, rfl⟩, rfl, rfl, rfl, rfl⟩

theorem witness_StepStops_strategy :
    strategyBState.edge.rst = false ∧ strategyBState.st = .run ∧ strategyBState.strat = .b := by decide

theorem witness_StepStops_time :
    (inRun 1038 []).edge.rst = false ∧ (inRun 1038 []).st = .run ∧ (inRun 1038 []).strat = .a ∧
      Config.runLength ≤ (inRun 1038 []).t.toNat ∧ ¬ Config.runLength ≤ (inRun 1037 []).t.toNat := by decide

theorem witness_NothingAltersTheParameters :
    (∃ s', step { inRun 5 [] with edges := [⟨true, true, true⟩] } = .next s') ∧ (∃ s', exec (.offs 5 31) (wide 64 rfl) = .next s') :=
  ⟨⟨_, rfl⟩, ⟨_, rfl⟩⟩

theorem witness_CommandStepConsumesOneWord :
    (offering [0x9000#16] inError).edge.rst = false ∧ (offering [0x9000#16] inError).edge.offer = true ∧
      (offering [0x9000#16] inError).st ≠ .run ∧ (offering [0x9000#16] inError).hostCmds = [0x9000#16] ∧
      (inRun 0 []).st = .run ∧ (offering [0x7000#16] { State.reset with edges := [⟨false, false, true⟩] }).edge.offer = false ∧
      State.reset.hostCmds = [] ∧ State.reset.edge.rst = false := by decide

theorem witness_StepRunsTheDecodedCommand :
    (Instr.offs 5 255).wf = true ∧ (offering [encode (.offs 5 255)] State.reset).edge.rst = false ∧
      (offering [encode (.offs 5 255)] State.reset).edge.offer = true ∧ State.reset.st ≠ .run ∧ inError.st ≠ .run := by decide

theorem witness_CommandsOutsideIdle : (inRun 5 []).st = .run ∧ inError.st = .error ∧ Instr.start ≠ .ack := by decide

theorem witness_NopChangesNothing : State.reset.st = .idle ∧ opField 0x0001#16 = 0 ∧ 0x0001#16 ≠ 0 := by decide

theorem witness_ClrEmptiesTheSets :
    p1Sets.st = .idle ∧ p1Sets.selected .k 61 = true ∧ State.reset.nsetK = 0 ∧ State.reset.nsetY = 0 := by decide

-- The last and the first nozzle numbers on each side of both limits.
theorem witness_SelAddsOneNozzleOrRaises :
    State.reset.st = .idle ∧
      [1#8, 90#8].all (nozzleValid .k) = true ∧ [0#8, 91#8, 255#8].all (fun n => !nozzleValid .k n) = true ∧
      [Channel.c, .m, .y].all (fun ch => nozzleValid ch 1#8 && nozzleValid ch 30#8 && !nozzleValid ch 0#8 && !nozzleValid ch 31#8) =
        true := by decide

theorem witness_SelIsIdempotentAndOrderFree :
    p1Sets.selected .k (61#8).toNat = true ∧ p1Sets.st = .idle ∧
      ([(Channel.k, 90#8), (.c, 30#8)] : List (Channel × BitVec 8)).Perm [(.c, 30#8), (.k, 90#8)] ∧
      nozzleValid .k 90#8 = true ∧ nozzleValid .c 30#8 = true :=
  ⟨by decide, by decide, List.Perm.swap _ _ _, by decide, by decide⟩

theorem witness_SizeWritesOrRaises : State.reset.st = .idle := by decide

theorem witness_QualWritesOrRaises :
    State.reset.st = .idle ∧ (5#3 : BitVec 3) = Quality.vsd3.code ∧ (5#3).toNat ≤ 5 ∧ (6#3).toNat > 5 := by decide

theorem witness_OffsWritesOrRaises :
    State.reset.st = .idle ∧ (31#8).toNat < 32 ∧ 32 ≤ (32#8).toNat ∧ opField 0x5600#16 = 5 ∧
      5 < ((0x5600#16).extractLsb' 8 3).toNat ∧ 5 < ((0x5700#16).extractLsb' 8 3).toNat := by decide

theorem witness_StratTakesAAndRefusesB : State.reset.st = .idle := by decide

theorem witness_StartBeginsARun : p1Sets.st = .idle ∧ ∃ s', exec .start p1Sets = .next s' := ⟨by decide, _, rfl⟩

theorem witness_AckClearsAndReturns :
    (LegalState { State.reset with done := true } ∧ ({ State.reset with done := true } : State).st = .idle) ∧ inError.st ≠ .run ∧ State.reset.st ≠ .run ∧ ∃ s', exec .ack (raise .valNozzle 0x205B#16 State.reset) = .next s' :=
  ⟨by decide, by decide, by decide, _, rfl⟩

theorem witness_ErrorStateDiscardsCommands :
    (offering [0x7000#16] inError).st = .error ∧ 0x7000#16 ≠ 0x8000#16 ∧ (offering [0x7000#16] inError).edge.rst = false ∧
      (offering [0x7000#16] inError).edge.offer = true := by decide

-- Each error that a word can raise, at the word nearest to a good one, and a word that raises none.
theorem witness_ErrorEntryIsPrecise :
    State.reset.st = .idle ∧ errorOf 32 0x205B#16 = some .valNozzle ∧ errorOf 32 0x3003#16 = some .cfgSize ∧
      errorOf 32 0x4006#16 = some .cfgQuality ∧ errorOf 32 0x5520#16 = some .cfgOffset ∧ errorOf 32 0x6001#16 = some .cfgStrategy ∧
      errorOf 32 0x5600#16 = some .illegalCmd ∧ errorOf 32 0x551F#16 = none ∧ errorOf 32 0x205A#16 = none ∧
      errorOf 64 0x553F#16 = none ∧ errorOf 64 0x5540#16 = some .cfgOffset ∧ State.reset.params.wordW = 32 := by decide

theorem witness_RunNeverRaises : (offering [0x9000#16] (inRun 5 [])).st = .run ∧
    (∃ s', step (offering [0x9000#16] (inRun 5 [])) = .next s') ∧ (offering [0x9000#16] (inRun 5 [])).edge.rst = false :=
  ⟨by decide, ⟨_, rfl⟩, by decide⟩

theorem witness_ErrorIsLeftByAckOrResetOnly :
    inError.st = .error ∧ resets { inError with edges := [⟨true, true, true⟩] } ∧ ¬ resets inError ∧
      accepts (offering [0x8000#16] inError) = some 0x8000#16 ∧ accepts (offering [0x7000#16] inError) ≠ some 0x8000#16 ∧
      accepts inError ≠ some 0x8000#16 ∧ (∃ s', step (offering [0x8000#16] inError) = .next s') :=
  ⟨rfl, rfl, not_resets rfl, by decide, by decide, by decide, _, rfl⟩

/-- Outcomes of the step in which one clause of the writers' statement has something to say. -/
def changes (s : State) (f : State → State → Bool) : Prop := ¬resets s ∧ ∃ s', step s = .next s' ∧ f s s' = true

-- One step for each clause and each of its writers: the sets by SEL and by CLR, SIZE, QUAL, STRAT (from a state with B), OFF.
theorem witness_RegistersChangeOnlyByTheirWriters :
    changes (offering [0x205A#16] State.reset) (fun s s' => s'.selected .k 90 != s.selected .k 90) ∧
      changes (offering [0x1000#16] p1Sets) (fun s s' => s'.selected .k 61 != s.selected .k 61) ∧
      changes (offering [0x3002#16] State.reset) (fun s s' => s'.size != s.size) ∧
      changes (offering [0x4005#16] State.reset) (fun s s' => s'.qual != s.qual) ∧
      changes (offering [0x6000#16] { State.reset with strat := .b }) (fun s s' => s'.strat != s.strat) ∧
      changes (offering [0x551F#16] State.reset) (fun s s' => offsetOf s'.off .sicl != offsetOf s.off .sicl) :=
  ⟨⟨not_resets rfl, _, rfl, by decide⟩, ⟨not_resets rfl, _, rfl, by decide⟩, ⟨not_resets rfl, _, rfl, by decide⟩,
    ⟨not_resets rfl, _, rfl, by decide⟩, ⟨not_resets rfl, _, rfl, by decide⟩, ⟨not_resets rfl, _, rfl, by decide⟩⟩

-- T by START and by an emit step; ST by START, by the last word, by ACK and by error entry; DONE; ERR and ERRCMD both ways.
theorem witness_RegistersChangeOnlyByTheirWriters_status :
    changes (offering [0x7000#16] { State.reset with t := 1038, done := true })
        (fun s s' => s'.t != s.t && s'.st != s.st && s'.done != s.done) ∧
      changes (inRun 5 []) (fun s s' => s'.t != s.t) ∧
      changes (inRun 1037 []) (fun s s' => s'.t != s.t && s'.st != s.st && s'.done != s.done) ∧
      changes (offering [0x8000#16] { inError with done := true })
        (fun s s' => s'.st != s.st && s'.done != s.done && s'.err != s.err && s'.errcmd != s.errcmd) ∧
      changes (offering [0x205B#16] State.reset)
        (fun s s' => s'.st == .error && s'.st != s.st && s'.err != s.err && s'.errcmd != s.errcmd) :=
  ⟨⟨not_resets rfl, _, rfl, by decide⟩, ⟨not_resets rfl, _, rfl, by decide⟩, ⟨not_resets rfl, _, rfl, by decide⟩,
    ⟨not_resets rfl, _, rfl, by decide⟩, ⟨not_resets rfl, _, rfl, by decide⟩⟩

-- The first and the last nozzle of a channel, and slots of their pairs.
theorem witness_SlotStatements :
    exTables.wf = true ∧ inPair exTables .y 30 187 = true ∧ inPair exTables .c 1 0 = true ∧ Channel.y ≠ .k ∧
      (1 : Nat) ≤ 1 ∧ (90 : Nat) ≤ 90 := ⟨test_example_mapping_is_well_formed, by decide⟩

-- The loops backwards, colour before black, and the black nozzles in descending order.
theorem witness_SelectionProcedureMeetsItsDefinition :
    exTables.wf = true ∧ ([61, 1] : List Nat).Perm (selectedNozzles p1Sets .k) ∧
      [].Perm (selectedNozzles p1Sets .c) ∧ [].Perm (selectedNozzles p1Sets .m) ∧ [].Perm (selectedNozzles p1Sets .y) ∧
      ([(.y, []), (.m, []), (.c, []), (.k, [61, 1])] : List (Channel × List Nat)).Perm
        [(.k, [61, 1]), (.c, []), (.m, []), (.y, [])] :=
  ⟨test_example_mapping_is_well_formed, by decide +kernel, by decide +kernel, by decide +kernel, by decide +kernel,
    by decide⟩

theorem witness_TwoSlotsPerSelectedNozzle :
    exTables.wf = true ∧ p1Sets.selected .k 90 = false ∧ inPair exTables .k 90 179 = true ∧
      p1Sets.selected .c 1 = false ∧ inPair exTables .c 1 1 = true :=
  ⟨test_example_mapping_is_well_formed, by decide⟩

theorem witness_SelectionIsMonotone :
    (∀ n : Nat, State.reset.selected .k n = true → p1Sets.selected .k n = true) ∧
      (∀ (ch : Channel) (n : Nat), ch ≠ .k → State.reset.selected ch n = true → p1Sets.selected ch n = true) ∧
      selK exTables p1Sets 0 = true ∧ selC exTables (withSets 0 1 0 0) 1 = true :=
  ⟨fun n h => by simp [State.selected, State.reset, State.resetFor] at h,
    fun ch n _ h => by cases ch <;> simp [State.selected, State.reset, State.resetFor] at h,
    by decide, by decide⟩

theorem witness_QualityStatements : exTables.wf = true ∧ ∀ j ∈ [0, 62], j ≤ 62 :=
  ⟨test_example_mapping_is_well_formed, by decide⟩

theorem witness_RawLineLengths : (bufK exTables p1Sets).length = 256 ∧ (qualSeq exTables .economy).length = 64 :=
  ⟨by simp [bufK, Config.selSlots], by simp [qualSeq, Config.qSlots]⟩

-- The boundaries of the phases: the size decides which is data, and the ranges exclude each other.
theorem witness_LinesEqualTheirClosedForms :
    clockLine .medium 485 = false ∧ clockLine .medium 487 = true ∧ clockLine .small 487 = false ∧ clockLine .small 488 = true ∧
      serialLine .large (fun _ => true) (fun _ => true) 255 = true ∧
      serialLine .large (fun _ => true) (fun _ => true) 256 = false ∧
      serialLine .large (fun _ => true) (fun _ => true) 485 = false ∧
      serialLine .large (fun _ => true) (fun _ => true) 486 = true ∧
      serialLine .large (fun _ => true) (fun _ => true) 971 = false ∧
      serialLine .large (fun _ => true) (fun _ => true) 972 = true ∧
      serialLine .large (fun _ => true) (fun _ => true) 1036 = false := by decide +kernel

theorem witness_LineLengthsAndOnes :
    exTables.wf = true ∧ ((256 : Nat) ≤ 256 ∧ (256 : Nat) ≤ 485) ∧ ((742 : Nat) ≤ 971 ∧ (971 : Nat) ≤ 971) ∧
      ((1036 : Nat) ≤ 1037 ∧ (1037 : Nat) ≤ 1037) := ⟨test_example_mapping_is_well_formed, by decide⟩

theorem witness_PackStatements :
    (⟨0, 1, 2, 3, 4, 31⟩ : Offsets).fits 32 = true ∧ packLines.nc.length = 5 ∧ packLines.sicl.length = 5 ∧
      ¬(({ packLines with sicl := [true] } : Lines).sicl.length = packLines.nc.length) := by decide

theorem witness_WordBitsAreTheSamples :
    State.reset.off.fits 32 = true ∧ State.reset.off = ⟨0, 1, 2, 3, 4, 5⟩ ∧
      ({ State.reset with off := ⟨0, 1, 2, 4, 4, 31⟩ } : State).off.fits 32 = true := by decide

theorem witness_EqualArgumentsGiveEqualRuns :
    ({ p1Sets with t := 1038, done := true, err := .cfgSize } : State).params = p1Sets.params ∧
      sameArguments p1Sets { p1Sets with t := 1038, done := true, err := .cfgSize } :=
  ⟨rfl, rfl, rfl, rfl, rfl, rfl, rfl, rfl, rfl⟩

-- The first, a middle and the last word; a ready and a stalled sink.
theorem witness_EmitDeliversAndAdvances :
    ∀ t ∈ ([0, 5, 1036, 1037] : List Nat), (inRun (BitVec.ofNat 11 t) []).st = .run ∧
      (inRun (BitVec.ofNat 11 t) []).t.toNat < 1038 ∧ (inRun (BitVec.ofNat 11 t) []).edge = ready := by decide

theorem witness_EmitDeliversAndAdvances_stall :
    (inRun 1037 [stall]).st = .run ∧ (inRun 1037 [stall]).strat = .a ∧ (inRun 1037 [stall]).t.toNat < 1038 ∧
      (inRun 1037 [stall]).edge.rst = false ∧ (inRun 1037 [stall]).edge.wReady = false := by decide

theorem witness_DeliveredWordsArePrefixOfTheRun :
    (inRun 0 []).st = .run ∧ (inRun 0 []).edge.rst = false ∧
      (inRun 0 []).sinkWords = [] ++ (runWords (inRun 0 [])).take (inRun 0 []).t.toNat ∧
      ∃ s', step (inRun 0 []) = .next s' :=
  ⟨rfl, rfl, by rw [show (inRun 0 []).t.toNat = 0 from rfl]; simp [inRun, State.reset, State.resetFor], _, rfl⟩

/-- The sets of P1, with a sink that is ready at 1038 edges. -/
def p1Ready : State := { p1Sets with edges := List.replicate 1038 ready }

theorem witness_RunDeliversThePackedSequence :
    p1Ready.st = .idle ∧ p1Ready.strat = .a ∧ 1038 ≤ p1Ready.edges.length ∧
      (∀ e ∈ p1Ready.edges.take 1038, e.rst = false ∧ e.wReady = true) ∧ ∃ s', exec .start p1Ready = .next s' := by
  refine ⟨rfl, rfl, (List.length_replicate ..).ge, fun e he => ?_, _, rfl⟩
  rw [List.eq_of_mem_replicate (List.mem_of_mem_take he)]
  exact ⟨rfl, rfl⟩

/-- The sink stalls once, then is ready `n` times. -/
def stallOnce (n : Nat) : List Edge := stall :: List.replicate n ready

theorem stallOnce_spec (n : Nat) : n + 1 ≤ (stallOnce n).length ∧ (∀ e ∈ (stallOnce n).take (n + 1), e.rst = false) ∧
    n ≤ (((stallOnce n).take (n + 1)).filter fun e => e.wReady).length := by
  rw [List.take_of_length_le (by simp [stallOnce])]
  refine ⟨by simp [stallOnce], fun e he => ?_, by simp [stallOnce, ready, stall]⟩
  rcases List.mem_cons.1 he with rfl | he
  · rfl
  · rw [List.eq_of_mem_replicate he]; rfl

theorem witness_RunEndsWhenTheSinkKeepsAccepting :
    (inRun 0 (stallOnce 1038)).st = .run ∧ (inRun 0 (stallOnce 1038)).strat = .a ∧ (inRun 0 (stallOnce 1038)).t = 0 ∧
      (inRun 0 (stallOnce 1038)).hostCmds = [] ∧ 1039 ≤ (inRun 0 (stallOnce 1038)).edges.length ∧
      (∀ e ∈ (inRun 0 (stallOnce 1038)).edges.take 1039, e.rst = false) ∧
      1038 ≤ (((inRun 0 (stallOnce 1038)).edges.take 1039).filter fun e => e.wReady).length :=
  ⟨rfl, rfl, rfl, rfl, stallOnce_spec 1038⟩

-- At the last word: the sink stalls at the one listed edge, and then for ever, or then no more.
theorem witness_SinkThatNeverAcceptsHoldsTheRunForEver :
    let s : State := { inRun 1037 [stall] with laterEdge := stall }
    s.st = .run ∧ s.strat = .a ∧ s.t.toNat < 1038 ∧ (∀ e ∈ s.edges, e.rst = false ∧ e.wReady = false) ∧
      s.laterEdge.rst = false ∧ s.laterEdge.wReady = false := by decide

theorem witness_FairSinkEndsTheRun :
    let s : State := offering [0x2001#16] { inRun 1037 [stall] with laterEdge := ready }
    s.st = .run ∧ s.strat = .a ∧ s.t.toNat < 1038 ∧ (∀ e ∈ s.edges, e.rst = false) ∧
      s.laterEdge.rst = false ∧ s.laterEdge.wReady = true := by decide

theorem witness_GenStartsExactlyTheNamedRun :
    State.reset.st = .idle ∧ (∀ ch : Channel, ∀ n ∈ (match ch with | .k => [1, 90] | _ => [1, 30]), 1 ≤ n ∧ n ≤ nozzleMax ch) ∧
      (91 ∈ [5, 91] ∧ 91 < 256 ∧ ¬(1 ≤ 91 ∧ 91 ≤ nozzleMax .k)) := by
  refine ⟨rfl, fun ch => ?_, by decide⟩
  cases ch <;> decide

end Sys2Proof.Tests
end

/-! The reset values of the registers (10_state.md R32) and the status view with the level outputs (R28). -/

namespace Sys2Proof.Machine

/-! ## After reset -/

/-- Reset leaves the four sets as CLR does. -/
@[simp] theorem clearSets_resetFor (p : Params) : (State.resetFor p).clearSets = State.resetFor p := (rfl)

theorem selected_resetFor (p : Params) (ch : Channel) (n : Nat) : (State.resetFor p).selected ch n = false := by
  rw [← clearSets_resetFor, selected_clearSets]

/-- A word is offered exactly in `RUN`, and never while `rst = 1` (10_state.md R35; log 13). -/
theorem wValid_iff {rst : Bool} {s : State} : wValid rst s = true ↔ rst = false ∧ s.st = .run := by
  simp only [wValid, Bool.and_eq_true, Bool.not_eq_true', beq_iff_eq]

theorem wValid_resetFor (rst : Bool) (p : Params) : wValid rst (State.resetFor p) = false := by
  have hst : (State.resetFor p).st ≠ .run := nofun
  exact Bool.eq_false_iff.2 fun hv => hst (wValid_iff.1 hv).2

/-- Settles O6: the registers other than the sets read off `State.resetFor`; no word is offered since `ST` is `IDLE`. -/
theorem resetLeavesTheSpecValues : Obligations.ResetLeavesTheSpecValues := by
  unfold Obligations.ResetLeavesTheSpecValues
  rintro p _ rfl
  exact ⟨selected_resetFor p, rfl, rfl, rfl, rfl, rfl, rfl, rfl, rfl, rfl, fun rst => wValid_resetFor rst p⟩

/-! ## The status view -/

/-- A field of the status view has a value when it has that value's bits, which `getLsbD_statusView` gives. -/
theorem statusView_field_eq {s : State} {start len : Nat} {v : BitVec len}
    (h : ∀ i < len, (statusView s).getLsbD (start + i) = v.getLsbD i) : (statusView s).extractLsb' start len = v :=
  BitVec.eq_of_getLsbD_eq fun i hi => by simp [hi, h i hi]

theorem statusView_st (s : State) : (statusView s).extractLsb' 0 2 = s.st.code :=
  statusView_field_eq fun i hi => by simp [getLsbD_statusView, hi]

theorem statusView_done (s : State) : (statusView s).extractLsb' 2 1 = BitVec.ofBool s.done :=
  statusView_field_eq fun i hi => by
    obtain rfl : i = 0 := by omega
    rw [getLsbD_statusView]; simp

theorem statusView_err (s : State) : (statusView s).extractLsb' 3 3 = s.err.code :=
  statusView_field_eq fun i hi => by simp [getLsbD_statusView, show ¬ 3 + i < 2 by omega, show 3 + i < 6 by omega]

theorem statusView_zeros (s : State) : (statusView s).extractLsb' 6 10 = 0 :=
  statusView_field_eq fun i hi => by
    simp [getLsbD_statusView, show ¬ 6 + i < 2 by omega, show ¬ 6 + i < 3 by omega, show 6 + i < 16 by omega]

theorem statusView_errcmd (s : State) : (statusView s).extractLsb' 16 16 = s.errcmd :=
  statusView_field_eq fun i hi => by
    simp [getLsbD_statusView, show ¬ 16 + i < 2 by omega, show ¬ 16 + i < 3 by omega, show ¬ 16 + i < 6 by omega]

/-! ## The level outputs -/

theorem busy_iff {s : State} : busy s = true ↔ s.st = .run := beq_iff_eq

theorem errorLine_iff {s : State} : errorLine s = true ↔ s.st = .error := beq_iff_eq

/-- Settles O32, field by field and line by line. -/
theorem statusViewShowsTheRegisters : Obligations.StatusViewShowsTheRegisters := by
  unfold Obligations.StatusViewShowsTheRegisters
  exact fun s => ⟨statusView_st s, statusView_done s, statusView_err s, statusView_zeros s, statusView_errcmd s, rfl,
    busy_iff, rfl, errorLine_iff⟩

end Sys2Proof.Machine

/-! The illegal words (30_encoding.md R57, R58): which words decode to nothing, row by row, and what they do. -/

namespace Sys2Proof.Machine

/-! ## The reserved bits, read from the word -/

/-- A field of `A` is that field of the word, eight bits further up (30_encoding.md R54). -/
theorem extractLsb'_aField {start len : Nat} (c : CmdWord) (h : start + len ≤ 4) :
    (aField c).extractLsb' start len = c.extractLsb' (8 + start) len :=
  BitVec.eq_of_getLsbD_eq fun i hi => by simp [aField, hi, show start + i < 4 by omega, Nat.add_assoc]

/-- A field of `IMM` is that field of the word (30_encoding.md R54). -/
theorem extractLsb'_immField {start len : Nat} (c : CmdWord) (h : start + len ≤ 8) :
    (immField c).extractLsb' start len = c.extractLsb' start len :=
  BitVec.extractLsb'_extractLsb'_of_le h

theorem signalFieldOk_eq_false_iff {s : BitVec 3} : signalFieldOk s = false ↔ s = 6 ∨ s = 7 := by
  revert s; decide

/-! ## The words of each row that decode to nothing -/

theorem opField_cases (c : CmdWord) :
    9 ≤ (opField c).toNat ∨ (opField c = 0 ∨ opField c = 1 ∨ opField c = 7 ∨ opField c = 8) ∨ opField c = 2 ∨
      opField c = 3 ∨ opField c = 4 ∨ opField c = 5 ∨ opField c = 6 := by
  generalize opField c = op
  revert op; decide

theorem decode_eq_none_of_nine_le {c : CmdWord} (h : 9 ≤ (opField c).toNat) : decode c = none := by
  unfold decode
  split
  case h_10 => rfl
  all_goals omega

/-- NOP, CLR, START and ACK have no operand: all their twelve lower bits are reserved. -/
theorem decode_eq_none_iff_of_no_operand {c : CmdWord}
    (h : opField c = 0 ∨ opField c = 1 ∨ opField c = 7 ∨ opField c = 8) :
    decode c = none ↔ c.extractLsb' 0 12 ≠ 0 := by
  rcases h with h | h | h | h <;> simp [decode, h]

theorem decode_eq_none_iff_of_sel {c : CmdWord} (h : opField c = 2) : decode c = none ↔ c.extractLsb' 10 2 ≠ 0 := by
  simp [decode, h, extractLsb'_aField]

theorem decode_eq_none_iff_of_size {c : CmdWord} (h : opField c = 3) :
    decode c = none ↔ aField c ≠ 0 ∨ c.extractLsb' 2 6 ≠ 0 := by
  simp [decode, h, extractLsb'_immField, imp_iff_not_or]

theorem decode_eq_none_iff_of_qual {c : CmdWord} (h : opField c = 4) :
    decode c = none ↔ aField c ≠ 0 ∨ c.extractLsb' 3 5 ≠ 0 := by
  simp [decode, h, extractLsb'_immField, imp_iff_not_or]

theorem decode_eq_none_iff_of_offs {c : CmdWord} (h : opField c = 5) :
    decode c = none ↔ c.extractLsb' 11 1 ≠ 0 ∨ c.extractLsb' 8 3 = 6 ∨ c.extractLsb' 8 3 = 7 := by
  rw [← signalFieldOk_eq_false_iff]
  simp [decode, h, extractLsb'_aField, imp_iff_not_or]

theorem decode_eq_none_iff_of_strat {c : CmdWord} (h : opField c = 6) :
    decode c = none ↔ aField c ≠ 0 ∨ c.extractLsb' 1 7 ≠ 0 := by
  simp [decode, h, extractLsb'_immField, imp_iff_not_or]

/-! ## What an illegal word does -/

theorem commandStep_illegal {c : CmdWord} (h : decode c = none) (s : State) : commandStep c s = illegalWord c s := by
  rw [commandStep, h]

/-- Settles O4: the opcode selects the row, whose lemma says which of its words are illegal; `whenIdle` gives the two
steps. -/
theorem illegalWordsAreExactlyThese : Obligations.IllegalWordsAreExactlyThese := by
  unfold Obligations.IllegalWordsAreExactlyThese
  refine fun c => ⟨?_, fun hd s => ⟨fun hs => ?_, fun hs => ?_⟩⟩
  · rcases opField_cases c with h | h | h | h | h | h | h
    · exact iff_of_true (decode_eq_none_of_nine_le h) (.inl h)
    · rw [decode_eq_none_iff_of_no_operand h]
      rcases h with h | h | h | h <;> simp [h]
    · simp [decode_eq_none_iff_of_sel h, h]
    · simp [decode_eq_none_iff_of_size h, h]
    · simp [decode_eq_none_iff_of_qual h, h]
    · simp [decode_eq_none_iff_of_offs h, h]
    · simp [decode_eq_none_iff_of_strat h, h]
  · rw [commandStep_illegal hd, illegalWord, whenIdle_of_idle hs]
    rfl
  · rw [commandStep_illegal hd, illegalWord, whenIdle_of_error hs]

end Sys2Proof.Machine

/-! The selection block builder (41_selection_builder.md R81): the procedure builds the buffers defined by slots, in any
order of its loops and of the nozzles within them. -/

namespace Sys2Proof.Machine

/-! ## The buffers by slots -/

theorem getD_bufK {tb : Tables} {s : State} {i : Nat} (hi : i < 256) : (bufK tb s).getD i false = selK tb s i :=
  getD_map_range 256 (selK tb s) i hi

theorem getD_bufC {tb : Tables} {s : State} {i : Nat} (hi : i < 256) : (bufC tb s).getD i false = selC tb s i :=
  getD_map_range 256 (selC tb s) i hi

theorem slotSetBy_iff_pairBase {tb : Tables} {s : State} {ch : Channel} {i : Nat} : slotSetBy tb s ch i = true ↔
    ∃ n, s.selected ch n = true ∧ (i = tb.pairBase ch n ∨ i = tb.pairBase ch n + 1) := by
  simp only [slotSetBy_iff, inPair_iff]

theorem selC_iff {tb : Tables} {s : State} {i : Nat} : selC tb s i = true ↔
    slotSetBy tb s .c i = true ∨ slotSetBy tb s .m i = true ∨ slotSetBy tb s .y i = true := by
  simp only [selC, Bool.or_eq_true, or_assoc]

/-! ## One of the two buffers

A loop writes one buffer and leaves the other, so each is followed on its own: `colour` says which. -/

/-- The colour buffer of a pair of buffers, or the black one. -/
def bufferOf (colour : Bool) (bufs : Bits × Bits) : Bits := if colour then bufs.2 else bufs.1

theorem bufferOf_ext {a b : Bits × Bits} (h : ∀ colour, bufferOf colour a = bufferOf colour b) : a = b :=
  Prod.ext (h false) (h true)

/-- A slot of either buffer of `SELBUILD` is set by a selected nozzle of a channel of that buffer. -/
theorem getD_bufferOf_selBuild {tb : Tables} {s : State} (colour : Bool) {i : Nat} (hi : i < 256) :
    (bufferOf colour (selBuild tb s)).getD i false = true ↔
      ∃ ch, (ch != .k) = colour ∧ slotSetBy tb s ch i = true := by
  cases colour with
  | false =>
    show (bufK tb s).getD i false = true ↔ _
    rw [getD_bufK hi, selK]
    simp
  | true =>
    show (bufC tb s).getD i false = true ↔ _
    rw [getD_bufC hi, selC_iff]
    constructor
    · rintro (h | h | h)
      exacts [⟨.c, rfl, h⟩, ⟨.m, rfl, h⟩, ⟨.y, rfl, h⟩]
    · rintro ⟨ch, hch, h⟩
      cases ch with
      | k => cases hch
      | c => exact .inl h
      | m => exact .inr (.inl h)
      | y => exact .inr (.inr h)

theorem length_bufferOf_selBuild (tb : Tables) (s : State) (colour : Bool) :
    (bufferOf colour (selBuild tb s)).length = 256 := by
  cases colour with
  | false => exact length_bufK tb s
  | true => exact length_bufC tb s

/-! ## The procedure, loop by loop -/

/-- A loop marks its pairs in the buffer of its channel and leaves the other buffer. -/
theorem bufferOf_markLoop (tb : Tables) (bufs : Bits × Bits) (ch : Channel) (ns : List Nat) (colour : Bool) :
    bufferOf colour (markLoop tb bufs (ch, ns)) =
      if (ch != .k) = colour then markPairs tb ch ns (bufferOf colour bufs) else bufferOf colour bufs := by
  cases ch <;> cases colour <;> rfl

/-- A loop sets the slot `i` of one of the buffers: it is a loop of that buffer and has a nozzle whose pair holds `i`. -/
def loopSets (tb : Tables) (colour : Bool) (l : Channel × List Nat) (i : Nat) : Prop :=
  (l.1 != .k) = colour ∧ ∃ n ∈ l.2, inPair tb l.1 n i = true

/-- One loop keeps the length of a buffer and sets the slots of its pairs there, if it is a loop of that buffer. -/
theorem markLoop_spec {tb : Tables} {bufs : Bits × Bits} {colour : Bool} {l : Channel × List Nat}
    (hlen : (bufferOf colour bufs).length = 256) (hn : ∀ n ∈ l.2, tb.pairBase l.1 n ≤ 254) :
    (bufferOf colour (markLoop tb bufs l)).length = 256 ∧
    ∀ i, i < 256 → ((bufferOf colour (markLoop tb bufs l)).getD i false = true ↔
      (bufferOf colour bufs).getD i false = true ∨ loopSets tb colour l i) := by
  obtain ⟨ch, ns⟩ := l
  simp only [loopSets, inPair_iff, bufferOf_markLoop]
  by_cases hc : (ch != .k) = colour
  · simpa only [hc, if_true, true_and] using markPairs_spec tb ch ns _ hlen hn
  · simpa only [hc, if_false, false_and, or_false, implies_true, and_true] using hlen

/-- The loops, in whatever order, set exactly the pairs of the nozzles in the loops of a buffer. -/
theorem foldl_markLoop_spec {tb : Tables} {colour : Bool} (ls : List (Channel × List Nat)) :
    ∀ bufs : Bits × Bits, (bufferOf colour bufs).length = 256 → (∀ l ∈ ls, ∀ n ∈ l.2, tb.pairBase l.1 n ≤ 254) →
      (bufferOf colour (ls.foldl (markLoop tb) bufs)).length = 256 ∧
      ∀ i, i < 256 → ((bufferOf colour (ls.foldl (markLoop tb) bufs)).getD i false = true ↔
        (bufferOf colour bufs).getD i false = true ∨ ∃ l ∈ ls, loopSets tb colour l i) := by
  induction ls with
  | nil => intro bufs hlen _; simpa using hlen
  | cons l ls ih =>
    intro bufs hlen hn
    obtain ⟨hl, hls⟩ := List.forall_mem_cons.1 hn
    obtain ⟨hlen₁, hslot₁⟩ := markLoop_spec hlen hl
    obtain ⟨hlen₂, hslot₂⟩ := ih (markLoop tb bufs l) hlen₁ hls
    refine ⟨hlen₂, fun i hi => ?_⟩
    rw [List.foldl_cons, hslot₂ i hi, hslot₁ i hi, or_assoc]
    simp only [List.mem_cons, exists_eq_or_imp]

/-! ## Loops over the selected nozzles -/

/-- The loops run over exactly the selected nozzles: each in a loop of its channel, and no other nozzle in any. -/
def loopsCover (s : State) (ls : List (Channel × List Nat)) : Prop :=
  ∀ ch n, (∃ ns, (ch, ns) ∈ ls ∧ n ∈ ns) ↔ s.selected ch n = true

/-- Loops over exactly the selected nozzles build the buffers of `SELBUILD`, in any order and with any repetition: which
slots they set depends on which nozzles occur in them only. -/
theorem markLoops_eq_selBuild {tb : Tables} {s : State} {ls : List (Channel × List Nat)} (hwf : tb.wf = true)
    (hcov : loopsCover s ls) : markLoops tb ls = selBuild tb s := by
  have hbound : ∀ l ∈ ls, ∀ n ∈ l.2, tb.pairBase l.1 n ≤ 254 := fun l hl n hn =>
    pairBase_le hwf ((hcov l.1 n).1 ⟨l.2, hl, hn⟩)
  refine bufferOf_ext fun colour => ?_
  have hzero : bufferOf colour (zeros Config.selSlots, zeros Config.selSlots) = zeros 256 := ite_self _
  obtain ⟨hlen, hslot⟩ := foldl_markLoop_spec ls (colour := colour) _ (by rw [hzero, length_zeros]) hbound
  refine bits_ext (hlen.trans (length_bufferOf_selBuild tb s colour).symm) fun i hi => ?_
  replace hi : i < 256 := hlen ▸ hi
  rw [Bool.eq_iff_iff, markLoops, hslot i hi, hzero, getD_zeros, getD_bufferOf_selBuild colour hi]
  simp only [slotSetBy_iff, ← hcov _ _]
  constructor
  · rintro (h | ⟨⟨ch, ns⟩, hl, hc, n, hn, hp⟩)
    · cases h
    · exact ⟨ch, hc, n, ⟨ns, hl, hn⟩, hp⟩
  · rintro ⟨ch, hc, n, ⟨ns, hl, hn⟩, hp⟩
    exact .inr ⟨(ch, ns), hl, hc, n, hn, hp⟩

/-- One loop for each channel over its selected nozzles, in any order of the loops and of the nozzles. -/
theorem loopsCover_of_perm {s : State} {ks cs ms ys : List Nat} {ls : List (Channel × List Nat)}
    (hk : ks.Perm (selectedNozzles s .k)) (hc : cs.Perm (selectedNozzles s .c)) (hm : ms.Perm (selectedNozzles s .m))
    (hy : ys.Perm (selectedNozzles s .y)) (hls : ls.Perm [(.k, ks), (.c, cs), (.m, ms), (.y, ys)]) :
    loopsCover s ls := by
  intro ch n
  rw [← mem_selectedNozzles]
  cases ch with
  | k => simp [hls.mem_iff, hk.mem_iff]
  | c => simp [hls.mem_iff, hc.mem_iff]
  | m => simp [hls.mem_iff, hm.mem_iff]
  | y => simp [hls.mem_iff, hy.mem_iff]

/-- Settles O37: loops in any order run over exactly the selected nozzles, and which nozzles these are fixes both buffers;
the procedure of R81 is one such order. -/
theorem selectionProcedureMeetsItsDefinition : Obligations.SelectionProcedureMeetsItsDefinition := by
  unfold Obligations.SelectionProcedureMeetsItsDefinition
  refine fun tb s hwf => ⟨length_bufK tb s, length_bufC tb s, fun i hi => ⟨?_, ?_⟩, ?_, ?_⟩
  · rw [getD_bufK hi]
    exact slotSetBy_iff_pairBase
  · rw [getD_bufC hi, selC_iff]
    exact or_congr slotSetBy_iff_pairBase (or_congr slotSetBy_iff_pairBase slotSetBy_iff_pairBase)
  · exact markLoops_eq_selBuild hwf (loopsCover_of_perm (.refl _) (.refl _) (.refl _) (.refl _) (.refl _))
  · exact fun ks cs ms ys hk hc hm hy ls hls => markLoops_eq_selBuild hwf (loopsCover_of_perm hk hc hm hy hls)

end Sys2Proof.Machine

/-! The quality sequence table (42_quality_table.md R88, R89): the buffer an index list yields, slot by slot, and the economy
pattern. -/

namespace Sys2Proof.Machine

/-! ## The buffer of an index list -/

/-- Writing a pair in bounds sets its two slots and leaves the others. -/
theorem getD_memWrite_pair {b : Bits} {i j : Nat} (h : j + 2 ≤ b.length) :
    (memWrite b j [true, true]).getD i false = true ↔ b.getD i false = true ∨ i = j ∨ i = j + 1 := by
  rw [getD_memWrite (v := [true, true]) h, List.length_cons, List.length_singleton]
  by_cases hpair : j ≤ i ∧ i < j + 2
  · obtain rfl | rfl : i = j ∨ i = j + 1 := by omega
    · simp
    · simp
  · rw [if_neg hpair, or_iff_left (by omega)]

/-- The lookup keeps the length of the buffer it writes and sets the pairs of its list there. -/
theorem foldl_memWrite_pair_spec (js : List Nat) : ∀ b : Bits, (∀ j ∈ js, j + 2 ≤ b.length) →
    (js.foldl (fun b j => memWrite b j [true, true]) b).length = b.length ∧
    ∀ i, (js.foldl (fun b j => memWrite b j [true, true]) b).getD i false = true ↔
      b.getD i false = true ∨ ∃ j ∈ js, i = j ∨ i = j + 1 := by
  induction js with
  | nil => intro b _; simp
  | cons j js ih =>
    intro b hb
    obtain ⟨hj, hjs⟩ := List.forall_mem_cons.1 hb
    have hlen : (memWrite b j [true, true]).length = b.length := memWrite_length hj
    obtain ⟨hlen', hslot⟩ := ih (memWrite b j [true, true]) (hlen.symm ▸ hjs)
    refine ⟨hlen'.trans hlen, fun i => ?_⟩
    rw [List.foldl_cons, hslot, getD_memWrite_pair hj, or_assoc]
    simp only [List.mem_cons, exists_eq_or_imp]

theorem length_qualFromList {js : List Nat} (hjs : ∀ j ∈ js, j ≤ 62) : (qualFromList js).length = 64 :=
  (foldl_memWrite_pair_spec js (zeros 64) (by simpa using hjs)).1

theorem getD_qualFromList {js : List Nat} (hjs : ∀ j ∈ js, j ≤ 62) (i : Nat) :
    (qualFromList js).getD i false = true ↔ ∃ j ∈ js, i = j ∨ i = j + 1 := by
  refine ((foldl_memWrite_pair_spec js (zeros 64) (by simpa using hjs)).2 i).trans (or_iff_right ?_)
  rw [getD_zeros]
  exact Bool.false_ne_true

theorem getD_qualSeq {tb : Tables} {q : Quality} {i : Nat} (hi : i < 64) :
    (qualSeq tb q).getD i false = qualSlot tb q i :=
  getD_map_range 64 (qualSlot tb q) i hi

/-- A list yields a profile's buffer when its pairs cover exactly the set slots of the profile's pattern. -/
theorem qualFromList_eq_qualSeq {tb : Tables} {q : Quality} {js : List Nat} (hjs : ∀ j ∈ js, j ≤ 62)
    (hslot : ∀ i < 64, qualSlot tb q i = true ↔ ∃ j ∈ js, i = j ∨ i = j + 1) : qualFromList js = qualSeq tb q := by
  have hlen := length_qualFromList hjs
  refine bits_ext (hlen.trans (length_qualSeq tb q).symm) fun i hi => ?_
  replace hi : i < 64 := hlen ▸ hi
  rw [Bool.eq_iff_iff, getD_qualFromList hjs, getD_qualSeq hi, hslot i hi]

/-! ## The economy pattern -/

/-- The ten set slots of the economy pattern (R89). -/
theorem qualSlot_economy (tb : Tables) :
    ∀ i < 64, qualSlot tb .economy i = true ↔ i ∈ [40, 41, 50, 51, 52, 53, 54, 55, 56, 57] := by
  show ∀ i < 64, Config.economyPattern.getLsbD i = true ↔ _
  decide

/-- A list whose pairs are exactly the ten slots yields the economy buffer. -/
theorem qualFromList_eq_economy (tb : Tables) {js : List Nat} (hjs : ∀ j ∈ js, j ≤ 62)
    (hpairs : ∀ i < 64, i ∈ [40, 41, 50, 51, 52, 53, 54, 55, 56, 57] ↔ ∃ j ∈ js, i = j ∨ i = j + 1) :
    qualFromList js = qualSeq tb .economy :=
  qualFromList_eq_qualSeq hjs fun i hi => (qualSlot_economy tb i hi).trans (hpairs i hi)

/-- Settles O40: the pattern is a constant of the model, and the pairs of either list are exactly its ten slots. -/
theorem economyPatternIsFixed : Obligations.EconomyPatternIsFixed := by
  unfold Obligations.EconomyPatternIsFixed
  exact fun tb => ⟨rfl, qualSlot_economy tb, qualFromList_eq_economy tb (by decide) (by decide),
    qualFromList_eq_economy tb (by decide) (by decide)⟩

end Sys2Proof.Machine

/-! The word packer (44_word_packer.md R118, R119) and the emit step (R124). -/

namespace Sys2Proof.Machine

/-! ## PACK -/

theorem sameLength_iff {v : Lines} : sameLength v = true ↔
    v.ch.length = v.nc.length ∧ v.lat.length = v.nc.length ∧ v.ck.length = v.nc.length ∧
      v.sibl.length = v.nc.length ∧ v.sicl.length = v.nc.length := by
  simp only [sameLength, Bool.and_eq_true, beq_iff_eq, and_assoc]

theorem pack_of_sameLength (w : Nat) {v : Lines} (o : Offsets) (h : sameLength v = true) :
    pack w v o = .ok ((List.range v.nc.length).map (packAt w v o)) :=
  if_pos h

theorem pack_of_not_sameLength (w : Nat) {v : Lines} (o : Offsets) (h : sameLength v = false) :
    pack w v o = .error .cfgLength :=
  if_neg (Bool.eq_false_iff.1 h)

/-- With offsets that fit the word, no term of the OR wraps (R118). -/
theorem toNat_packSample {w : Nat} {o : Offsets} (h : o.fits w = true) (nc ch lat ck sibl sicl : Bool) :
    (packSample w o nc ch lat ck sibl sicl).toNat =
      (nc.toNat <<< o.nc) ||| (ch.toNat <<< o.ch) ||| (lat.toNat <<< o.lat) ||| (ck.toNat <<< o.ck) |||
      (sibl.toNat <<< o.sibl) ||| (sicl.toNat <<< o.sicl) := by
  have hfit := fits_iff.1 h
  simp only [packSample, BitVec.toNat_or, toNat_lane nc (k := o.nc) (hfit .nc), toNat_lane ch (k := o.ch) (hfit .ch),
    toNat_lane lat (k := o.lat) (hfit .lat), toNat_lane ck (k := o.ck) (hfit .ck),
    toNat_lane sibl (k := o.sibl) (hfit .sibl), toNat_lane sicl (k := o.sicl) (hfit .sicl)]

/-- Settles O46: `PACK` answers `packAt` at each index, whose six lanes lose no bit when the offsets fit. -/
theorem packIsTheOrOfShifts : Obligations.PackIsTheOrOfShifts := by
  unfold Obligations.PackIsTheOrOfShifts
  refine ⟨?_, fun w v o => ⟨?_, pack_of_not_sameLength w o⟩⟩
  · intro w n v o hfit hnc hch hlat hck hsibl hsicl
    subst hnc
    have hsame : sameLength v = true := sameLength_iff.2 ⟨hch, hlat, hck, hsibl, hsicl⟩
    refine ⟨_, pack_of_sameLength w o hsame, by simp, fun t ht => ?_⟩
    have hword : ((List.range v.nc.length).map (packAt w v o)).getD t 0 = packAt w v o t := by
      simp [List.getD_eq_getElem?_getD, ht]
    rw [hword]
    exact toNat_packSample hfit ..
  · cases hsame : sameLength v with
    | true => exact .inr ⟨_, pack_of_sameLength w o hsame⟩
    | false => exact .inl (pack_of_not_sameLength w o hsame)

/-- Settles O47: the lengths are not all that of `NC`, so the check of R119 fails. -/
theorem packRejectsUnequalLengths : Obligations.PackRejectsUnequalLengths := by
  unfold Obligations.PackRejectsUnequalLengths
  intro w v o hne
  have hsame : sameLength v = false := Bool.eq_false_iff.2 fun h => hne (sameLength_iff.1 h)
  exact ⟨pack_of_not_sameLength w o hsame, rfl⟩

/-! ## The emit step -/

theorem atLastWord_iff {s : State} : atLastWord s = true ↔ s.t.toNat = 1037 := beq_iff_eq

/-- The emit step at the last word ends the run. -/
theorem emitStep_of_last {s : State} (h : s.t.toNat = 1037) :
    emitStep s = { s with
      sinkWords := s.sinkWords ++ [⟨(wordAt s.params.wordW Config.tables s 1037).toNat, true⟩]
      t := 1038, st := .idle, done := true } := by
  have hlast : atLastWord s = true := atLastWord_iff.2 h
  rw [emitStep, if_pos hlast, offered, hlast, h]
  rfl

/-- The emit step at an earlier word advances `T` by one. -/
theorem emitStep_of_not_last {s : State} (h : s.t.toNat ≠ 1037) :
    emitStep s = { s with
      sinkWords := s.sinkWords ++ [⟨(wordAt s.params.wordW Config.tables s s.t.toNat).toNat, false⟩]
      t := BitVec.ofNat 11 (s.t.toNat + 1) } := by
  have hlast : atLastWord s = false := Bool.eq_false_iff.2 fun hl => h (atLastWord_iff.1 hl)
  have ht : BitVec.ofNat 11 (s.t.toNat + 1) = s.t + 1 := by simp [BitVec.ofNat_add]
  rw [emitStep, if_neg (Bool.eq_false_iff.1 hlast), offered, hlast, ht]

/-- Settles O51: in `RUN` the edge is an emit step or a stall (`step_run`), and an emit step is at the last word or before
it; no word reads the edges to come, so a stall leaves the offered word as it was. -/
theorem emitDeliversAndAdvances : Obligations.EmitDeliversAndAdvances := by
  unfold Obligations.EmitDeliversAndAdvances
  intro s hrun hstrat ht hrst
  have hvalid : wValid s.edge.rst s = true := wValid_iff.2 ⟨hrst, hrun⟩
  have hstep := step_run hrst hrun hstrat ht
  refine ⟨hvalid, if_pos hvalid, if_pos hvalid, fun hready hlast => ?_, fun hready hlast => ?_, fun hstall => ⟨?_, rfl⟩⟩
  · rw [hstep, if_pos hready, emitStep_of_last (s := s.pastEdge) hlast]
    rfl
  · rw [hstep, if_pos hready, emitStep_of_not_last (s := s.pastEdge) hlast]
    rfl
  · rw [hstep, if_neg (Bool.eq_false_iff.1 hstall)]
    rfl

end Sys2Proof.Machine

/-! The commands one by one (45_commands.md R132 to R145): the word of each, what it does in `IDLE`, and that `ERROR` discards
every word but ACK's. -/

namespace Sys2Proof

/-! ## The words as numbers -/

/-- The format `C` of 30_encoding.md R54 by value: its fields do not overlap. -/
theorem formatC_eq_ofNat (op a : BitVec 4) (imm : BitVec 8) :
    formatC op a imm = BitVec.ofNat 16 (0x1000 * op.toNat + 0x100 * a.toNat + imm.toNat) := by
  have hop := op.isLt
  have ha := a.isLt
  have himm := imm.isLt
  have hor : op.toNat * 2 ^ 12 ||| a.toNat * 2 ^ 8 ||| imm.toNat = 0x1000 * op.toNat + 0x100 * a.toNat + imm.toNat := by
    rw [Nat.or_assoc, Nat.mul_comm, Nat.mul_comm a.toNat, ← Nat.two_pow_add_eq_or_of_lt himm,
      ← Nat.two_pow_add_eq_or_of_lt (by omega), Nat.add_assoc]
  apply BitVec.eq_of_toNat_eq
  simp only [formatC, BitVec.toNat_or, BitVec.toNat_shiftLeft, BitVec.toNat_setWidth, BitVec.toNat_ofNat,
    Nat.shiftLeft_eq]
  simp (disch := omega) only [Nat.mod_eq_of_lt, hor]

theorem encode_sel (ch : Channel) (n : BitVec 8) :
    encode (.sel ch n) = BitVec.ofNat 16 (0x2000 + 256 * ch.code.toNat + n.toNat) := by
  have hcode : ch.code.toNat % 16 = ch.code.toNat := Nat.mod_eq_of_lt (by omega)
  simp [encode, formatC_eq_ofNat, hcode]

theorem encode_size (sz : BitVec 2) : encode (.size sz) = BitVec.ofNat 16 (0x3000 + sz.toNat) := by
  have hsz : sz.toNat % 256 = sz.toNat := Nat.mod_eq_of_lt (by omega)
  simp [encode, formatC_eq_ofNat, hsz]

theorem encode_qual (q : BitVec 3) : encode (.qual q) = BitVec.ofNat 16 (0x4000 + q.toNat) := by
  have hq : q.toNat % 256 = q.toNat := Nat.mod_eq_of_lt (by omega)
  simp [encode, formatC_eq_ofNat, hq]

theorem encode_offs (sg : BitVec 3) (k : BitVec 8) :
    encode (.offs sg k) = BitVec.ofNat 16 (0x5000 + 256 * sg.toNat + k.toNat) := by
  have hsg : sg.toNat % 16 = sg.toNat := Nat.mod_eq_of_lt (by omega)
  simp [encode, formatC_eq_ofNat, hsg]

/-- The opcode and the twelve bits below it make up the word. -/
theorem word_ext {c d : CmdWord} (hop : opField c = opField d) (hlow : c.extractLsb' 0 12 = d.extractLsb' 0 12) :
    c = d := by
  have hop' : c.toNat >>> 12 % 2 ^ 4 = d.toNat >>> 12 % 2 ^ 4 := congrArg BitVec.toNat hop
  have hlow' : c.toNat % 2 ^ 12 = d.toNat % 2 ^ 12 := congrArg BitVec.toNat hlow
  bv_omega

/-- `0x8000` is the only word of ACK (30_encoding.md R57: all its lower bits are reserved). -/
theorem eq_of_decode_ack {c : CmdWord} (h : decode c = some .ack) : c = 0x8000#16 := by
  dsimp only [decode] at h
  split at h
  case h_9 hop =>
    split at h
    case isTrue hlow => exact word_ext (BitVec.eq_of_toNat_eq hop) hlow
    case isFalse => cases h
  case h_10 => cases h
  all_goals split at h <;> cases h

namespace Machine

/-! ## A command in `IDLE`: its effect, or its operand's error -/

/-- In `IDLE` a command whose operand is in order has its effect. -/
theorem exec_of_effect {i : Instr} {s s' : State} (hs : s.st = .idle) (h : Effect i s s') : exec i s = .next s' := by
  cases h with
  | nop => exact whenIdle_of_idle hs _
  | clr => exact whenIdle_of_idle hs _
  | sel _ ch n h1 h2 => rw [exec, execSel, whenIdle_of_idle hs, if_pos (nozzleValid_iff.2 ⟨h1, h2⟩)]
  | size _ z => rw [exec, execSize, whenIdle_of_idle hs, dropletOf_code]
  | qual _ q => rw [exec, execQual, whenIdle_of_idle hs, qualityOf_code]
  | offs _ g k hk =>
    rw [exec, execOffs, offsAt, whenIdle_of_idle hs, signalOf_code]
    exact if_pos (decide_eq_true hk)
  | strat => exact whenIdle_of_idle hs _
  | start => exact whenIdle_of_idle hs _
  | ack => rw [exec, execAck, hs]

/-- In `IDLE` a command whose operand is not in order raises its error for its own word. -/
theorem exec_of_operandError {i : Instr} {s : State} {e : ErrCode} (hs : s.st = .idle)
    (h : operandError s.params.wordW i = some e) : exec i s = .next (raise e (encode i) s) := by
  rcases exec_idle i hs with ⟨e', he', hnext⟩ | ⟨hnone, -⟩
  · obtain rfl := Option.some.inj (he'.symm.trans h)
    exact hnext
  · cases hnone.symm.trans h

/-! ## NOP and CLR -/

/-- Settles O17: a word with opcode 0 is NOP's only if its lower bits are 0 as well. -/
theorem nopChangesNothing : Obligations.NopChangesNothing := by
  unfold Obligations.NopChangesNothing
  refine ⟨fun s hs => exec_of_effect hs (.nop s), rfl, fun c hop hne => ?_⟩
  rw [decode_eq_none_iff_of_no_operand (.inl hop)]
  exact fun hlow => hne (word_ext hop hlow)

theorem clearSets_of_empty {s : State} (hk : s.nsetK = 0) (hc : s.nsetC = 0) (hm : s.nsetM = 0) (hy : s.nsetY = 0) :
    s.clearSets = s := by
  cases s
  subst hk hc hm hy
  rfl

/-- Settles O18: CLR's effect is `clearSets`, which leaves empty sets as they are. -/
theorem clrEmptiesTheSets : Obligations.ClrEmptiesTheSets := by
  unfold Obligations.ClrEmptiesTheSets
  intro s hs
  have hexec : exec .clr s = .next s.clearSets := exec_of_effect hs (.clr s)
  exact ⟨hexec, rfl, selected_clearSets s, fun hk hc hm hy => by rw [hexec, clearSets_of_empty hk hc hm hy]⟩

/-! ## SEL -/

theorem nozzleMax_eq (ch : Channel) : nozzleMax ch = if ch = .k then 90 else 30 := by cases ch <;> rfl

/-- SEL writes the nozzle sets and no other register. -/
theorem select_eq_with_sets (s : State) (ch : Channel) (n : Nat) :
    s.select ch n = { s with
      nsetK := (s.select ch n).nsetK, nsetC := (s.select ch n).nsetC
      nsetM := (s.select ch n).nsetM, nsetY := (s.select ch n).nsetY } := by
  cases ch <;> rfl

/-- Settles O19: the range in the statement is `nozzleValid`'s, and a valid nozzle enters its set by `select`. -/
theorem selAddsOneNozzleOrRaises : Obligations.SelAddsOneNozzleOrRaises := by
  unfold Obligations.SelAddsOneNozzleOrRaises
  intro s ch n hs
  rw [← nozzleMax_eq ch, ← encode_sel]
  refine ⟨fun ⟨h1, h2⟩ => ?_, fun hout => ?_, rfl, rfl⟩
  · exact ⟨s.select ch n.toNat, exec_of_effect hs (.sel s ch n h1 h2), fun ch' m => selected_select s ch ch' _ m h1 h2,
      select_eq_with_sets s ch _⟩
  · exact exec_of_operandError hs (if_neg fun hv => hout (nozzleValid_iff.1 hv))

/-! ## SIZE, QUAL and STRAT -/

/-- Settles O21: codes 0, 1 and 2 are those of the three sizes, and code 3 is SIZE's operand error. -/
theorem sizeWritesOrRaises : Obligations.SizeWritesOrRaises := by
  unfold Obligations.SizeWritesOrRaises
  exact fun s hs => ⟨exec_of_effect hs (.size s .small), exec_of_effect hs (.size s .medium),
    exec_of_effect hs (.size s .large), exec_of_operandError hs rfl, encode_size, rfl⟩

/-- Settles O22: a code names a profile (`qualityOf`), or is above 5. -/
theorem qualWritesOrRaises : Obligations.QualWritesOrRaises := by
  unfold Obligations.QualWritesOrRaises
  intro s q hs
  refine ⟨?_, fun hle => ?_, fun hgt => ?_, encode_qual q, rfl⟩
  · rintro p rfl
    exact exec_of_effect hs (.qual s p)
  · cases hq : qualityOf q with
    | none => exact absurd (qualityOf_eq_none.1 hq) (by omega)
    | some p => exact ⟨p, qualityOf_eq_some.1 hq⟩
  · rw [← encode_qual]
    exact exec_of_operandError hs (if_pos hgt)

/-- Settles O24: B is STRAT's operand error, since `HAS_STRATEGY_B` is false. -/
theorem stratTakesAAndRefusesB : Obligations.StratTakesAAndRefusesB := by
  unfold Obligations.StratTakesAAndRefusesB
  exact fun s hs => ⟨exec_of_effect hs (.strat s), exec_of_operandError hs rfl, rfl, rfl, rfl, rfl⟩

/-! ## OFFS -/

/-- OFFS writes the offset registers and no other. -/
theorem setOffset_eq_with_off (s : State) (g : Signal) (k : Nat) :
    s.setOffset g k = { s with off := (s.setOffset g k).off } := by
  cases g <;> rfl

theorem offsAt_of_lt {w : Nat} {s : State} {k : BitVec 8} (hs : s.st = .idle) (g : Signal) (hk : k.toNat < w) :
    offsAt w g.code k s = .next (s.setOffset g k.toNat) := by
  rw [offsAt, whenIdle_of_idle hs, signalOf_code]
  exact if_pos (decide_eq_true hk)

theorem offsAt_of_le {w : Nat} {s : State} {k : BitVec 8} (hs : s.st = .idle) (g : Signal) (hk : w ≤ k.toNat) :
    offsAt w g.code k s = .next (raise .cfgOffset (encode (.offs g.code k)) s) := by
  rw [offsAt, whenIdle_of_idle hs, signalOf_code]
  exact if_neg fun hfits => Nat.not_lt.2 hk (of_decide_eq_true hfits)

/-- An OFFS word whose index names no signal is illegal (30_encoding.md R58 (c)). -/
theorem decode_eq_none_of_no_signal {c : CmdWord} (hop : opField c = 5) (hsg : 5 < (c.extractLsb' 8 3).toNat) :
    decode c = none := by
  have hcode : ∀ sg : BitVec 3, 5 < sg.toNat → sg = 6 ∨ sg = 7 := by decide
  exact (decode_eq_none_iff_of_offs hop).2 (.inr (hcode _ hsg))

/-- Settles O23: the two cases are `offsAt`'s, and the machine's OFFS is `offsAt` at its block's width. -/
theorem offsWritesOrRaises : Obligations.OffsWritesOrRaises := by
  unfold Obligations.OffsWritesOrRaises
  refine ⟨fun w s g k hs => ?_, rfl, fun sg k s => rfl, fun s g k hs hk => ?_, fun c => decode_eq_none_of_no_signal⟩
  · rw [← encode_offs]
    exact ⟨fun hk => ⟨_, offsAt_of_lt hs g hk, fun g' => offsetOf_setOffset s g g' _, setOffset_eq_with_off s g _⟩,
      offsAt_of_le hs g, rfl⟩
  · exact ⟨_, offsAt_of_lt hs g hk, (offsetOf_setOffset s g g _).trans (if_pos rfl), setOffset_eq_with_off s g _⟩

/-! ## ACK, and the other words in `ERROR` -/

theorem exec_ack {s : State} (hs : s.st ≠ .run) : exec .ack s = .next (acknowledge s) := by
  cases h : s.st with
  | idle => exact exec_of_effect h (.ack s)
  | run => exact absurd h hs
  | error => exact exec_error .ack h

/-- In `IDLE` a legal state has no error on record, so ACK clears `DONE` only. -/
theorem acknowledge_of_idle {s : State} (hlegal : LegalState s) (hs : s.st = .idle) :
    acknowledge s = { s with done := false } := by
  obtain ⟨-, -, -, -, herr, -, hcmd⟩ := hlegal
  have hne : s.st ≠ .error := by simp [hs]
  have herr0 : s.err = .none := not_not.1 fun h => hne (herr.1 h)
  rw [acknowledge, ← herr0, ← hcmd hne, ← hs]

/-- Settles O26: error entry and `acknowledge` both leave the argument registers and `T`. -/
theorem ackClearsAndReturns : Obligations.AckClearsAndReturns := by
  unfold Obligations.AckClearsAndReturns
  refine fun s hs => ⟨exec_ack hs, rfl, fun hlegal hidle => ?_, fun e c s' h => ?_⟩
  · rw [exec_ack hs, acknowledge_of_idle hlegal hidle]
  · have hraise : (raise e c s).st ≠ .run := nofun
    obtain rfl := Host.Outcome.next.inj ((exec_ack hraise).symm.trans h)
    exact ⟨⟨rfl, rfl, rfl, rfl, rfl, rfl, rfl, rfl⟩, rfl, rfl, rfl, rfl⟩

/-- `ERROR` discards every word but `0x8000`, the illegal ones and those of the other commands alike. -/
theorem commandStep_of_error {s : State} {c : CmdWord} (hs : s.st = .error) (hc : c ≠ 0x8000#16) :
    commandStep c s = .next s := by
  cases hd : decode c with
  | none => rw [commandStep_illegal hd, illegalWord, whenIdle_of_error hs]
  | some i =>
    have hi : i ≠ .ack := by
      rintro rfl
      exact hc (eq_of_decode_ack hd)
    rw [commandStep, hd]
    exact (exec_error i hs).trans (by rw [if_neg hi])

/-- Settles O27: the machine's step is the command step on the state with the word consumed. -/
theorem errorStateDiscardsCommands : Obligations.ErrorStateDiscardsCommands := by
  unfold Obligations.ErrorStateDiscardsCommands
  refine fun s c hs hc => ⟨commandStep_of_error hs hc, fun rest hcmds hrst hoffer => ?_⟩
  have hrun : s.st ≠ .run := by simp [hs]
  rw [step_command hrst hoffer hrun hcmds, commandStep_of_error (s := s.pastEdge.consumeCmd) hs hc]
  simp [State.consumeCmd, State.pastEdge, hcmds]

end Machine

end Sys2Proof

/-! Error entry and the way out of `ERROR` (60_exceptions.md R153, R158): a word that decodes is its command's word, so error
entry records it, and a clock edge in `ERROR` resets, acknowledges or changes no register. -/

namespace Sys2Proof

/-! ## A word that decodes is its command's word -/

/-- A vector whose bits from `k` on are zero is what its low `k` bits extend to. -/
theorem setWidth_extractLsb'_of_high_zero {n k m : Nat} {v : BitVec n} (hn : n ≤ k + m)
    (hv : v.extractLsb' k m = 0) : (v.extractLsb' 0 k).setWidth n = v := by
  refine BitVec.eq_of_getLsbD_eq fun i hi => ?_
  by_cases hik : i < k
  · simp [hi, hik]
  · have hbit : v.getLsbD i = false := by
      have := congrArg (BitVec.getLsbD · (i - k)) hv
      simpa [show i - k < m by omega, show k + (i - k) = i by omega] using this
    simp [hik, hbit]

/-- A word is the format of any three values its fields have. -/
theorem formatC_eq_of_fields {c : CmdWord} {op a : BitVec 4} {imm : BitVec 8} (hop : (opField c).toNat = op.toNat)
    (ha : a = aField c) (himm : imm = immField c) : formatC op a imm = c := by
  rw [ha, himm, ← BitVec.eq_of_toNat_eq hop, formatC_fields]

/-- The decoder drops no bit of a word that decodes (30_encoding.md R57). -/
theorem encode_of_decode {c : CmdWord} {i : Instr} (h : decode c = some i) : encode i = c := by
  dsimp only [decode] at h
  split at h
  case h_10 => cases h
  all_goals
    rename_i hop
    obtain ⟨hzero, hi⟩ := Option.ite_none_right_eq_some.1 h
    cases hi
  case h_1 | h_2 | h_8 | h_9 => exact word_ext (BitVec.eq_of_toNat_eq hop.symm) hzero.symm
  case h_3 =>
    refine formatC_eq_of_fields hop ?_ rfl
    rw [Channel.code_ofCode]
    exact setWidth_extractLsb'_of_high_zero (m := 2) (by decide) hzero
  case h_4 => exact formatC_eq_of_fields hop hzero.1.symm (setWidth_extractLsb'_of_high_zero (m := 6) (by decide) hzero.2)
  case h_5 => exact formatC_eq_of_fields hop hzero.1.symm (setWidth_extractLsb'_of_high_zero (m := 5) (by decide) hzero.2)
  case h_6 => exact formatC_eq_of_fields hop (setWidth_extractLsb'_of_high_zero (m := 1) (by decide) hzero.1) rfl
  case h_7 =>
    refine formatC_eq_of_fields hop hzero.1.symm ?_
    rw [Strategy.code_ofCode]
    exact setWidth_extractLsb'_of_high_zero (m := 7) (by decide) hzero.2

namespace Machine

/-! ## Error entry -/

theorem errorOf_of_decode {c : CmdWord} {i : Instr} (h : decode c = some i) (w : Nat) : errorOf w c = operandError w i := by
  rw [errorOf, h]

theorem errorOf_of_illegal {c : CmdWord} (h : decode c = none) (w : Nat) : errorOf w c = some .illegalCmd := by
  rw [errorOf, h]

theorem commandStep_of_decode {c : CmdWord} {i : Instr} (h : decode c = some i) (s : State) :
    commandStep c s = exec i s := by
  rw [commandStep, h]

/-- In `IDLE` a word raises the error it has, or else decodes and has its command's effect. -/
theorem commandStep_idle (c : CmdWord) {s : State} (hs : s.st = .idle) :
    (∃ e, errorOf s.params.wordW c = some e ∧ commandStep c s = .next (raise e c s)) ∨
    (errorOf s.params.wordW c = none ∧ ∃ i s', decode c = some i ∧ commandStep c s = .next s' ∧ Effect i s s') := by
  cases hd : decode c with
  | none =>
    exact .inl ⟨.illegalCmd, errorOf_of_illegal hd _, by rw [commandStep_illegal hd, illegalWord, whenIdle_of_idle hs]⟩
  | some i =>
    rw [errorOf_of_decode hd, commandStep_of_decode hd]
    rcases exec_idle i hs with ⟨e, he, hnext⟩ | ⟨hnone, s', hnext, heff⟩
    · rw [encode_of_decode hd] at hnext
      exact .inl ⟨e, he, hnext⟩
    · exact .inr ⟨hnone, i, s', rfl, hnext, heff⟩

/-- An effect leads to `IDLE` or `RUN`, never to `ERROR`. -/
theorem Effect.st_ne_error {i : Instr} {s s' : State} (h : Effect i s s') (hs : s.st = .idle) : s'.st ≠ .error := by
  cases h <;> simp [hs]

/-- Of the effects only ACK's writes the error registers. -/
theorem Effect.err_errcmd {i : Instr} {s s' : State} (h : Effect i s s') (hi : i ≠ .ack) :
    s'.err = s.err ∧ s'.errcmd = s.errcmd := by
  cases h with
  | ack => exact absurd rfl hi
  | _ => simp

/-- Settles O28: `commandStep_idle` gives the two cases, `raise` the first one's state and the effects' lemmas the second's. -/
theorem errorEntryIsPrecise : Obligations.ErrorEntryIsPrecise := by
  unfold Obligations.ErrorEntryIsPrecise
  intro c s hs
  rcases commandStep_idle c hs with ⟨e', he', hnext⟩ | ⟨hnone, i, s', hd, hnext, heff⟩
  · refine ⟨fun e he => ?_, fun hnone => nomatch he'.symm.trans hnone⟩
    obtain rfl := Option.some.inj (he'.symm.trans he)
    exact ⟨hnext, errorLine_iff.2 rfl⟩
  · refine ⟨fun e he => (nomatch hnone.symm.trans he), fun _ => ⟨s', hnext, heff.st_ne_error hs, fun hc => ?_⟩⟩
    refine heff.err_errcmd ?_
    rintro rfl
    exact hc (eq_of_decode_ack hd)

/-! ## A clock edge in `ERROR` -/

/-- At an edge without reset, outside `RUN`, the block accepts the word it is offered. -/
theorem accepts_of_not_run {s : State} (hrst : s.edge.rst = false) (hs : s.st ≠ .run) : accepts s = s.offeredCmd := by
  have hready : cmdReady s.edge.rst s = true := by simp [cmdReady, hrst, hs]
  exact if_pos hready

theorem commandStep_ack (s : State) : commandStep 0x8000#16 s = exec .ack s := commandStep_of_decode (by decide) s

/-- Every state a clock edge in `ERROR` can lead to. -/
theorem step_error_cases {s s' : State} (hs : s.st = .error) (h : step s = .next s') :
    (resets s ∧ s' = resetBlock s.pastEdge) ∨
    (¬resets s ∧ accepts s = some 0x8000#16 ∧ s' = acknowledge s.pastEdge.consumeCmd) ∨
    (¬resets s ∧ accepts s ≠ some 0x8000#16 ∧ (s' = s.pastEdge.consumeCmd ∨ s' = s.pastEdge)) := by
  rcases step_cases h with ⟨hrst, rfl⟩ | ⟨-, hrun, -⟩ | ⟨hrst, hrun, hcmd⟩
  · exact .inl ⟨hrst, rfl⟩
  · exact nomatch hs.symm.trans hrun
  · have hno : ¬resets s := by simp [resets, hrst]
    rw [accepts_of_not_run hrst hrun]
    rcases hcmd with ⟨c, hoff, hstep⟩ | ⟨hoff, rfl⟩
    · by_cases hc : c = 0x8000#16
      · subst hc
        rw [commandStep_ack, exec_ack (s := s.pastEdge.consumeCmd) hrun] at hstep
        exact .inr (.inl ⟨hno, hoff, (Host.Outcome.next.inj hstep).symm⟩)
      · rw [commandStep_of_error (s := s.pastEdge.consumeCmd) hs hc] at hstep
        exact .inr (.inr ⟨hno, by simp [hoff, hc], .inl (Host.Outcome.next.inj hstep).symm⟩)
    · exact .inr (.inr ⟨hno, by simp [hoff], .inr rfl⟩)

/-- Settles O30: the three clauses are the cases of `step_error_cases`, which exclude each other. -/
theorem errorIsLeftByAckOrResetOnly : Obligations.ErrorIsLeftByAckOrResetOnly := by
  unfold Obligations.ErrorIsLeftByAckOrResetOnly
  intro s s' hs hstep
  rcases step_error_cases hs hstep with ⟨hrst, rfl⟩ | ⟨hno, hack, rfl⟩ | ⟨hno, hne, hkept⟩
  · exact ⟨fun _ => rfl, fun hno => absurd hrst hno, fun hno => absurd hrst hno⟩
  · exact ⟨fun hrst => absurd hrst hno, fun _ _ => rfl, fun _ hne => absurd hack hne⟩
  · refine ⟨fun hrst => absurd hrst hno, fun _ hack => absurd hack hne, fun _ _ => ?_⟩
    rcases hkept with rfl | rfl <;> rfl

end Machine

end Sys2Proof

/-! The decoder and the encoder (30_encoding.md R54 to R60): each is the inverse of the other, and the rows of the opcode map
are exactly the words that decode. -/

namespace Sys2Proof

/-! ## Encoding, then decoding -/

/-- A vector widened with zeros: its low bits are the vector. -/
@[simp] theorem extractLsb'_setWidth_low {n k : Nat} (v : BitVec k) (hk : k ≤ n) :
    (v.setWidth n).extractLsb' 0 k = v := by
  rw [BitVec.extractLsb'_setWidth_of_le (by omega), BitVec.extractLsb'_eq_self]

/-- A vector widened with zeros: its high bits are zero. -/
@[simp] theorem extractLsb'_setWidth_high {n k m : Nat} (v : BitVec k) : (v.setWidth n).extractLsb' k m = 0 :=
  BitVec.eq_of_getLsbD_eq fun i hi => by simp

/-- The decoder reads back the operands of a well-formed command. -/
theorem decode_encode {i : Instr} (h : i.wf = true) : decode (encode i) = some i := by
  cases i with
  | nop => decide
  | clr => decide
  | sel ch n => simp [decode, encode]
  | size sz => simp [decode, encode]
  | qual q => simp [decode, encode]
  | offs sg k =>
    have hsg : signalFieldOk sg = true := h
    simp [decode, encode, hsg]
  | strat m => simp [decode, encode]
  | start => decide
  | ack => decide

/-- Settles O2, command by command. -/
theorem encodeThenDecodeGivesBack : Obligations.EncodeThenDecodeGivesBack := by
  unfold Obligations.EncodeThenDecodeGivesBack
  exact fun i => decode_encode

/-! ## Decoding, then encoding -/

/-- The decoder delivers no OFFS without a signal (R58 (c)). -/
theorem wf_of_decode {c : CmdWord} {i : Instr} (h : decode c = some i) : i.wf = true := by
  cases i with
  | offs sg k =>
    dsimp only [decode] at h
    split at h
    case h_6 =>
      obtain ⟨⟨-, hsg⟩, hi⟩ := Option.ite_none_right_eq_some.1 h
      cases hi
      exact hsg
    case h_10 => cases h
    all_goals cases (Option.ite_none_right_eq_some.1 h).2
  | _ => rfl

/-- Settles O3: `encode_of_decode` for the word, `wf_of_decode` for the command. -/
theorem decodeThenEncodeGivesBack : Obligations.DecodeThenEncodeGivesBack := by
  unfold Obligations.DecodeThenEncodeGivesBack
  exact fun c i h => ⟨encode_of_decode h, wf_of_decode h⟩

/-- Settles O1: each word is evaluated. -/
theorem wordsOfTheTableDecode : Obligations.WordsOfTheTableDecode := by
  unfold Obligations.WordsOfTheTableDecode
  decide

/-! ## The opcode map -/

/-- A row fixes every field of the word that its mask covers. -/
theorem extractLsb'_of_selects {r : OpcodeRow} {c : CmdWord} (h : r.selects c = true) (start len : Nat)
    (hmask : r.mask.extractLsb' start len = BitVec.allOnes len) :
    c.extractLsb' start len = r.want.extractLsb' start len := by
  have hwant : c &&& r.mask = r.want := beq_iff_eq.1 h
  rw [← hwant, BitVec.extractLsb'_and, hmask, BitVec.and_allOnes]

/-- Every row fixes the opcode. -/
theorem opField_of_selects {r : OpcodeRow} {c : CmdWord} (hr : r ∈ opcodeRows) (h : r.selects c = true) :
    opField c = opField r.want := by
  have hmask : ∀ r ∈ opcodeRows, r.mask.extractLsb' 12 4 = BitVec.allOnes 4 := by decide
  exact extractLsb'_of_selects h 12 4 (hmask r hr)

/-- No two rows have one opcode. -/
theorem row_ext {r r' : OpcodeRow} (hr : r ∈ opcodeRows) (hr' : r' ∈ opcodeRows)
    (h : opField r.want = opField r'.want) : r = r' := by
  have hrows : ∀ r ∈ opcodeRows, ∀ r' ∈ opcodeRows, opField r.want = opField r'.want → r = r' := by decide
  exact hrows r hr r' hr' h

/-- The word of a well-formed command selects the row with its mnemonic. -/
theorem encode_selects_row {i : Instr} (h : i.wf = true) :
    ∃ r ∈ opcodeRows, r.selects (encode i) = true ∧ r.mnemonic = i.mnemonic := by
  have hrow : Laws.TableRow.Statement i := by
    cases i with
    | nop => exact Laws.TableRow.nop
    | clr => exact Laws.TableRow.clr
    | sel ch n => exact Laws.TableRow.sel ch n
    | size sz => exact Laws.TableRow.size sz
    | qual q => exact Laws.TableRow.qual q
    | offs sg k => exact Laws.TableRow.offs sg k
    | strat m => exact Laws.TableRow.strat m
    | start => exact Laws.TableRow.start
    | ack => exact Laws.TableRow.ack
  exact hrow h

theorem selects_row_of_decode {c : CmdWord} {i : Instr} (h : decode c = some i) :
    ∃ r ∈ opcodeRows, r.selects c = true ∧ r.mnemonic = i.mnemonic := by
  have hrow := encode_selects_row (wf_of_decode h)
  rwa [encode_of_decode h] at hrow

/-- A word of the OFFS row that decodes names a signal (R58 (c)). -/
theorem signal_le_of_decode {c : CmdWord} (h : decode c ≠ none) (hop : opField c = 5) :
    (c.extractLsb' 8 3).toNat ≤ 5 := by
  by_contra hgt
  exact h (Machine.decode_eq_none_of_no_signal hop (Nat.lt_of_not_le hgt))

/-- A word that selects a row decodes, if its signal exists on the OFFS row: the row's mask covers all its reserved bits. -/
theorem decode_ne_none_of_selects {r : OpcodeRow} {c : CmdWord} (hr : r ∈ opcodeRows) (h : r.selects c = true)
    (hsg : r.mnemonic = "OFFS" → (c.extractLsb' 8 3).toNat ≤ 5) : decode c ≠ none := by
  have hop := opField_of_selects hr h
  have hfield := extractLsb'_of_selects h
  simp only [opcodeRows, List.mem_cons, List.not_mem_nil, or_false] at hr
  rcases hr with rfl | rfl | rfl | rfl | rfl | rfl | rfl | rfl | rfl
  · rw [Ne, Machine.decode_eq_none_iff_of_no_operand (.inl hop), not_not]
    exact hfield 0 12 (by decide)
  · rw [Ne, Machine.decode_eq_none_iff_of_no_operand (.inr (.inl hop)), not_not]
    exact hfield 0 12 (by decide)
  · rw [Ne, Machine.decode_eq_none_iff_of_sel hop, not_not]
    exact hfield 10 2 (by decide)
  · rw [Ne, Machine.decode_eq_none_iff_of_size hop, not_or, not_not, not_not]
    exact ⟨hfield 8 4 (by decide), hfield 2 6 (by decide)⟩
  · rw [Ne, Machine.decode_eq_none_iff_of_qual hop, not_or, not_not, not_not]
    exact ⟨hfield 8 4 (by decide), hfield 3 5 (by decide)⟩
  · rw [Ne, Machine.decode_eq_none_iff_of_offs hop, ← Machine.signalFieldOk_eq_false_iff, not_or, not_not,
      Bool.not_eq_false]
    exact ⟨hfield 11 1 (by decide), decide_eq_true (hsg rfl)⟩
  · rw [Ne, Machine.decode_eq_none_iff_of_strat hop, not_or, not_not, not_not]
    exact ⟨hfield 8 4 (by decide), hfield 1 7 (by decide)⟩
  · rw [Ne, Machine.decode_eq_none_iff_of_no_operand (.inr (.inr (.inl hop))), not_not]
    exact hfield 0 12 (by decide)
  · rw [Ne, Machine.decode_eq_none_iff_of_no_operand (.inr (.inr (.inr hop))), not_not]
    exact hfield 0 12 (by decide)

/-- Settles O5: rows differ in the opcode; a word that decodes is a command's word, which selects its row; and a row's mask
covers the reserved bits of its words. -/
theorem opcodeRowsPartitionTheLegalWords : Obligations.OpcodeRowsPartitionTheLegalWords := by
  unfold Obligations.OpcodeRowsPartitionTheLegalWords
  refine ⟨fun c r r' hr hr' hc hc' => ?_, fun c => ⟨fun hsome => ?_, ?_⟩, fun c i => selects_row_of_decode⟩
  · exact row_ext hr hr' ((opField_of_selects hr hc).symm.trans (opField_of_selects hr' hc'))
  · obtain ⟨i, hi⟩ := Option.isSome_iff_exists.1 hsome
    obtain ⟨r, hr, hc, -⟩ := selects_row_of_decode hi
    refine ⟨r, hr, hc, fun hoffs => signal_le_of_decode (by simp [hi]) ?_⟩
    have hrow : ∀ r ∈ opcodeRows, r.mnemonic = "OFFS" → opField r.want = 5 := by decide
    exact (opField_of_selects hr hc).trans (hrow r hr hoffs)
  · rintro ⟨r, hr, hc, hsg⟩
    exact Option.isSome_iff_ne_none.2 (decode_ne_none_of_selects hr hc hsg)

end Sys2Proof

/-! One clock edge (10_state.md R33, R36; 45_commands.md section 1): which step it is, which register it writes, and what it
keeps. -/

namespace Sys2Proof.Machine

/-! ## Where the step has no meaning -/

theorem commandEdge_next (c : Option CmdWord) (s : State) : ∃ s', commandEdge c s = .next s' := by
  cases c with
  | none => exact ⟨s, rfl⟩
  | some c => exact commandStep_next c s.consumeCmd

/-- A clock edge in `RUN` is refused by name where the spec gives no behaviour (93_implementation_defined.md U7, U11). -/
theorem runEdge_refused_iff {ready : Bool} {s : State} {r : Refusal} : runEdge ready s = .refused r ↔
    (r = .strategyBRun ∧ s.strat = .b) ∨ (r = .timeIndexPastEnd ∧ s.strat = .a ∧ Config.runLength ≤ s.t.toNat) := by
  unfold runEdge
  cases hstrat : s.strat with
  | b => simp [eq_comm]
  | a =>
    by_cases ht : Config.runLength ≤ s.t.toNat
    · simp [ht, eq_comm]
    · cases ready <;> simp [ht]

theorem step_of_reset {s : State} (h : s.edge.rst = true) : step s = .next (resetBlock s.pastEdge) := if_pos h

theorem step_of_run {s : State} (hrst : s.edge.rst = false) (hs : s.st = .run) :
    step s = runEdge s.edge.wReady s.pastEdge := by
  simp [step, clockEdge, hrst, hs]

theorem step_of_not_run {s : State} (hrst : s.edge.rst = false) (hs : s.st ≠ .run) :
    step s = commandEdge s.offeredCmd s.pastEdge := by
  cases hst : s.st <;> simp_all [step, clockEdge]

theorem step_refused_iff {s : State} {r : Refusal} : step s = .refused r ↔
    s.edge.rst = false ∧ s.st = .run ∧ ((r = .strategyBRun ∧ s.strat = .b) ∨
      (r = .timeIndexPastEnd ∧ s.strat = .a ∧ Config.runLength ≤ s.t.toNat)) := by
  cases hrst : s.edge.rst with
  | true => simp [step_of_reset hrst]
  | false =>
    by_cases hs : s.st = .run
    · simp [step_of_run hrst hs, runEdge_refused_iff, hs]
    · obtain ⟨s', hnext⟩ := commandEdge_next s.offeredCmd s.pastEdge
      simp [step_of_not_run hrst hs, hnext, hs]

/-- Settles O12: only `runEdge` refuses, and `Fault` has no constructor. -/
theorem stepStopsOnlyWhereTheSpecGivesNoBehaviour : Obligations.StepStopsOnlyWhereTheSpecGivesNoBehaviour := by
  unfold Obligations.StepStopsOnlyWhereTheSpecGivesNoBehaviour
  exact fun s => ⟨nofun, fun r => step_refused_iff⟩

/-- Settles O11: the states in which `step_refused_iff` lets the step refuse are not legal. -/
theorem legalStatesAlwaysStep : Obligations.LegalStatesAlwaysStep := by
  unfold Obligations.LegalStatesAlwaysStep
  rintro s ⟨hstrat, -, -, hrun, -⟩
  cases hstep : step s with
  | next s' => exact ⟨s', rfl⟩
  | fault f => cases f
  | refused r =>
    obtain ⟨-, hst, ⟨-, hb⟩ | ⟨-, -, ht⟩⟩ := step_refused_iff.1 hstep
    · cases hstrat.symm.trans hb
    · exact absurd (hrun hst).1 (Nat.not_lt.2 ht)

/-! ## Reset -/

/-- Settles O7: reset is the first case of the clock edge, and both handshake outputs are gated by `rst`. -/
theorem resetHasPriority : Obligations.ResetHasPriority := by
  unfold Obligations.ResetHasPriority
  exact fun s hrst => ⟨step_of_reset hrst, by simp [cmdReady, hrst], by simp [wValid, hrst]⟩

/-! ## What a command keeps -/

theorem Effect.params {i : Instr} {s s' : State} (h : Effect i s s') : s'.params = s.params := by
  cases h <;> simp

theorem Effect.hostCmds {i : Instr} {s s' : State} (h : Effect i s s') : s'.hostCmds = s.hostCmds := by
  cases h <;> simp

/-- Every state a command step can lead to, outside `RUN`: the word raises its error, or its command is executed, or it is
discarded. -/
theorem commandStep_cases {c : CmdWord} {s s' : State} (hs : s.st ≠ .run) (h : commandStep c s = .next s') :
    (s.st = .idle ∧ ∃ e, errorOf s.params.wordW c = some e ∧ s' = raise e c s) ∨
    (∃ i, decode c = some i ∧ (s.st = .idle ∨ i = .ack) ∧ Effect i s s') ∨
    (s.st = .error ∧ s' = s) := by
  cases hst : s.st with
  | run => exact absurd hst hs
  | idle =>
    rcases commandStep_idle c hst with ⟨e, he, hnext⟩ | ⟨-, i, t, hd, hnext, heff⟩ <;>
      obtain rfl := Host.Outcome.next.inj (hnext.symm.trans h)
    · exact .inl ⟨rfl, e, he, rfl⟩
    · exact .inr (.inl ⟨i, hd, .inl rfl, heff⟩)
  | error =>
    by_cases hc : c = 0x8000#16
    · subst hc
      rw [commandStep_ack, exec_ack hs] at h
      obtain rfl := Host.Outcome.next.inj h
      exact .inr (.inl ⟨.ack, by decide, .inr rfl, .ack s⟩)
    · exact .inr (.inr ⟨rfl, Host.Outcome.next.inj (h.symm.trans (commandStep_of_error hst hc))⟩)

theorem commandStep_params {c : CmdWord} {s s' : State} (hs : s.st ≠ .run) (h : commandStep c s = .next s') :
    s'.params = s.params := by
  rcases commandStep_cases hs h with ⟨-, e, -, rfl⟩ | ⟨i, -, -, heff⟩ | ⟨-, rfl⟩
  · rfl
  · exact heff.params
  · rfl

theorem commandStep_hostCmds {c : CmdWord} {s s' : State} (hs : s.st ≠ .run) (h : commandStep c s = .next s') :
    s'.hostCmds = s.hostCmds := by
  rcases commandStep_cases hs h with ⟨-, e, -, rfl⟩ | ⟨i, -, -, heff⟩ | ⟨-, rfl⟩
  · rfl
  · exact heff.hostCmds
  · rfl

theorem exec_params {i : Instr} {s s' : State} (h : exec i s = .next s') : s'.params = s.params := by
  by_cases hs : s.st = .run
  · rw [exec_run i hs] at h
    cases h
    rfl
  · rcases exec_cases hs h with ⟨-, e, -, rfl⟩ | ⟨-, -, heff⟩ | ⟨-, -, rfl⟩ | ⟨-, -, rfl⟩
    · rfl
    · exact heff.params
    · rfl
    · rfl

/-- Settles O13: no case of a step or of a command writes the parameters. -/
theorem nothingAltersTheParameters : Obligations.NothingAltersTheParameters := by
  unfold Obligations.NothingAltersTheParameters
  refine ⟨fun s s' h => ?_, fun i s s' => exec_params⟩
  rcases step_cases h with ⟨-, rfl⟩ | ⟨-, -, -, -, ⟨-, rfl⟩ | ⟨-, rfl⟩⟩ | ⟨-, hs, ⟨c, -, hc⟩ | ⟨-, rfl⟩⟩
  · rfl
  · exact emitStep_params _
  · rfl
  · exact commandStep_params (s := s.pastEdge.consumeCmd) hs hc
  · rfl

/-- Settles O16 by `exec_run` and `exec_error`. -/
theorem commandsOutsideIdleChangeNothing : Obligations.CommandsOutsideIdleChangeNothing := by
  unfold Obligations.CommandsOutsideIdleChangeNothing
  exact fun i s => ⟨exec_run i, fun hs hi => (exec_error i hs).trans (by rw [if_neg hi])⟩

/-- Settles O25: START's effect is `startRun`, which leaves the argument registers. -/
theorem startBeginsARun : Obligations.StartBeginsARun := by
  unfold Obligations.StartBeginsARun
  intro s hs
  have hexec : exec .start s = .next s.startRun := exec_of_effect hs (.start s)
  refine ⟨hexec, fun s' h => ?_⟩
  obtain rfl := Host.Outcome.next.inj (hexec.symm.trans h)
  exact ⟨⟨rfl, rfl, rfl, rfl, rfl, rfl, rfl, rfl⟩, rfl, rfl, rfl⟩

/-! ## The command step -/

theorem offeredCmd_eq_none_iff {s : State} : s.offeredCmd = none ↔ s.edge.offer = false ∨ s.hostCmds = [] := by
  unfold State.offeredCmd
  cases s.edge.offer <;> simp

theorem accepts_of_run {s : State} (h : s.st = .run) : accepts s = none :=
  if_neg (by simp [cmdReady, h])

/-- Settles O14: outside `RUN` the edge is a command step on the first word, or none; in `RUN` no word is accepted and no
step writes the host's words. -/
theorem commandStepConsumesOneWord : Obligations.CommandStepConsumesOneWord := by
  unfold Obligations.CommandStepConsumesOneWord
  refine ⟨fun s c rest hrst hoffer hs hcmds => ?_, fun s hrst hs hno => ?_, fun s s' hs h => ⟨accepts_of_run hs, ?_⟩⟩
  · have hoffered : s.offeredCmd = some c := by simp [State.offeredCmd, hoffer, hcmds]
    have hrest : s.pastEdge.consumeCmd = { s with hostCmds := rest, edges := s.edges.tail } := by
      simp [State.consumeCmd, State.pastEdge, hcmds]
    have hstep := step_command hrst hoffer hs hcmds
    rw [hrest] at hstep
    exact ⟨(accepts_of_not_run hrst hs).trans hoffered, hstep, fun s' h =>
      commandStep_hostCmds (s := { s with hostCmds := rest, edges := s.edges.tail }) hs (hstep.symm.trans h)⟩
  · have hoffered := offeredCmd_eq_none_iff.2 hno
    refine ⟨(accepts_of_not_run hrst hs).trans hoffered, ?_⟩
    rw [step_of_not_run hrst hs, hoffered]
    rfl
  · rcases step_cases h with ⟨-, rfl⟩ | ⟨-, -, -, -, ⟨-, rfl⟩ | ⟨-, rfl⟩⟩ | ⟨-, hne, -⟩
    · rfl
    · exact emitStep_hostCmds _
    · rfl
    · exact absurd hs hne

theorem commandStep_encode {i : Instr} (h : i.wf = true) (s : State) : commandStep (encode i) s = exec i s :=
  commandStep_of_decode (decode_encode h) s

/-- The word placed by `withFetchWord` is consumed at the next edge, which restores the state. -/
theorem step_placeWord {s : State} (c : CmdWord) (hs : s.st ≠ .run) : step (placeWord s c) = commandStep c s := by
  have hst : (placeWord s c).st = s.st := if_neg hs
  have hback : (placeWord s c).pastEdge.consumeCmd = s := by
    rw [placeWord, if_neg hs]
    rfl
  rw [step_command (s := placeWord s c) rfl rfl (hst ▸ hs) rfl, hback]

/-- Settles O15: the command step decodes the word to the command it encodes. -/
theorem stepRunsTheDecodedCommand : Obligations.StepRunsTheDecodedCommand := by
  unfold Obligations.StepRunsTheDecodedCommand
  refine ⟨fun s i rest hi hrst hoffer hs hcmds => ?_, fun s i hi hs => ?_⟩
  · rw [step_command hrst hoffer hs hcmds, commandStep_encode hi]
    simp [State.consumeCmd, State.pastEdge, hcmds]
  · have hword : BitVec.ofNat 16 ((encode i).toNat % 2 ^ 16) = encode i := by
      rw [Nat.mod_eq_of_lt (encode i).isLt, BitVec.ofNat_toNat, BitVec.setWidth_eq]
    rw [State.withFetchWord, hword, step_placeWord _ hs, commandStep_encode hi]

/-! ## Which step an edge is -/

/-- Every state an edge without reset can lead to: an emit step, an error entry, a command's effect, or no change of a
register of the block. -/
theorem step_effects {s s' : State} (h : step s = .next s') (hno : ¬resets s) :
    (emits s ∧ s.strat = .a ∧ s.t.toNat < Config.runLength ∧ s' = emitStep s.pastEdge) ∨
    (∃ c e, s.st = .idle ∧ accepts s = some c ∧ errorOf s.params.wordW c = some e ∧
      s' = raise e c s.pastEdge.consumeCmd) ∨
    (∃ i, executes s i ∧ Effect i s.pastEdge.consumeCmd s') ∨
    (s' = s.pastEdge ∨ s' = s.pastEdge.consumeCmd) := by
  rcases step_cases h with ⟨hrst, -⟩ | ⟨hrst, hs, ha, ht, ⟨hw, rfl⟩ | ⟨-, rfl⟩⟩ | ⟨hrst, hs, ⟨c, hoff, hc⟩ | ⟨-, rfl⟩⟩
  · exact absurd hrst hno
  · exact .inl ⟨⟨wValid_iff.2 ⟨hrst, hs⟩, hw⟩, ha, ht, rfl⟩
  · exact .inr (.inr (.inr (.inl rfl)))
  · have hacc : accepts s = some c := (accepts_of_not_run hrst hs).trans hoff
    rcases commandStep_cases (s := s.pastEdge.consumeCmd) hs hc with ⟨hidle, e, he, rfl⟩ | ⟨i, hd, hi, heff⟩ | ⟨-, rfl⟩
    · exact .inr (.inl ⟨c, e, hidle, hacc, he, rfl⟩)
    · exact .inr (.inr (.inl ⟨i, ⟨c, hacc, hd, hi⟩, heff⟩))
    · exact .inr (.inr (.inr (.inr rfl)))
  · exact .inr (.inr (.inr (.inl rfl)))

/-- Settles O29: a clock edge in `RUN` resets, emits or stalls, and none of these raises. -/
theorem runNeverRaises : Obligations.RunNeverRaises := by
  unfold Obligations.RunNeverRaises
  intro s s' hs h
  rcases step_cases h with ⟨hrst, rfl⟩ | ⟨-, -, -, -, ⟨-, rfl⟩ | ⟨-, rfl⟩⟩ | ⟨-, hne, -⟩
  · exact ⟨nofun, accepts_of_run hs, fun hno => nomatch hrst.symm.trans hno⟩
  · refine ⟨?_, accepts_of_run hs, fun _ => ⟨emitStep_err _, emitStep_errcmd _⟩⟩
    rw [emitStep_st]
    split <;> simp [hs]
  · exact ⟨by simp [hs], accepts_of_run hs, fun _ => ⟨rfl, rfl⟩⟩
  · exact absurd hs hne

end Sys2Proof.Machine

/-! The invariant of 10_state.md R33: reset establishes it and every step keeps it, so every reachable state meets it. -/

namespace Sys2Proof.Machine

/-! ## Reset, and each kind of step -/

/-- The reset values meet the invariant, the reset offsets by the check of the block's parameters (00_scope.md R8). -/
theorem legalState_resetFor (p : Params) : LegalState (State.resetFor p) := by
  have hfit : p.offReset.fits p.wordW = true := (Bool.and_eq_true_iff.1 p.wf).2
  exact ⟨rfl, hfit, by simp [State.resetFor], nofun, by simp [State.resetFor], nofun, fun _ => rfl⟩

/-- Settles O8: the invariant reads the registers and the parameters only. -/
theorem resetMeetsTheInvariant : Obligations.ResetMeetsTheInvariant := by
  unfold Obligations.ResetMeetsTheInvariant
  exact fun p _ _ _ => legalState_resetFor p

/-- Error entry records an error that the word raises. -/
theorem legalState_raise {s : State} {e : ErrCode} {c : CmdWord} (h : LegalState s)
    (he : errorOf s.params.wordW c = some e) (hne : e ≠ .none) : LegalState (raise e c s) := by
  obtain ⟨hstrat, hfit, ht, -⟩ := h
  exact ⟨hstrat, hfit, ht, nofun, by simp [hne], fun _ => he, fun hst => absurd rfl hst⟩

theorem operandError_ne_none (w : Nat) (i : Instr) : operandError w i ≠ some .none := by
  cases i with
  | offs sg k =>
    rw [operandError]
    split_ifs <;> simp
  | _ => simp [operandError]

theorem errorOf_ne_none {w : Nat} {c : CmdWord} {e : ErrCode} (h : errorOf w c = some e) : e ≠ .none := by
  rintro rfl
  unfold errorOf at h
  split at h
  · exact operandError_ne_none _ _ h
  · cases h

/-- The return from the error state meets the invariant again. -/
theorem legalState_acknowledge {s : State} (h : LegalState s) : LegalState (acknowledge s) := by
  obtain ⟨hstrat, hfit, ht, -⟩ := h
  exact ⟨hstrat, hfit, ht, nofun, by simp, nofun, fun _ => rfl⟩

/-- An offset that fits the word keeps all six in it. -/
theorem fits_setOffset {s : State} {w k : Nat} (h : s.off.fits w = true) (g : Signal) (hk : k < w) :
    (s.setOffset g k).off.fits w = true := by
  refine fits_iff.2 fun g' => ?_
  rw [offsetOf_setOffset]
  split
  · exact hk
  · exact fits_iff.1 h g'

theorem legalState_startRun {s : State} (h : LegalState s) (hs : s.st = .idle) : LegalState s.startRun := by
  obtain ⟨hstrat, hfit, -, -, herr, -, hcmd⟩ := h
  have hne : s.st ≠ .error := by simp [hs]
  have herr0 : s.err = .none := not_not.1 fun h => hne (herr.1 h)
  exact ⟨hstrat, hfit, by simp, fun _ => ⟨by simp [Config.runLength], rfl, herr0⟩, by simp [herr0], nofun,
    fun _ => hcmd hne⟩

/-- Every effect in `IDLE` keeps the invariant, and so does ACK's in `ERROR`. -/
theorem Effect.legalState {i : Instr} {s s' : State} (h : Effect i s s') (hi : s.st = .idle ∨ i = .ack)
    (hs : LegalState s) : LegalState s' := by
  cases h with
  | ack => exact legalState_acknowledge hs
  | start => exact legalState_startRun hs (hi.resolve_right nofun)
  | strat =>
    obtain ⟨-, hrest⟩ := hs
    exact ⟨rfl, hrest⟩
  | offs _ g k hk =>
    obtain ⟨hstrat, hfit, hrest⟩ := hs
    simp only [LegalState, setOffset_strat, setOffset_t, setOffset_st, setOffset_done, setOffset_err, setOffset_errcmd,
      setOffset_params]
    exact ⟨hstrat, fits_setOffset hfit g hk, hrest⟩
  | sel _ ch n =>
    simpa only [LegalState, select_strat, select_off, select_t, select_st, select_done, select_err, select_errcmd,
      select_params] using hs
  | nop => exact hs
  | clr => exact hs
  | size => exact hs
  | qual => exact hs

/-- The emit step ends the run at the last word and stays below `L` before it. -/
theorem legalState_emitStep {s : State} (h : LegalState s) (hs : s.st = .run) : LegalState (emitStep s) := by
  obtain ⟨hstrat, hfit, -, hrun, herr, hrec, hcmd⟩ := h
  obtain ⟨ht, hdone, herr0⟩ := hrun hs
  have hne : s.st ≠ .error := by simp [hs]
  by_cases hlast : s.t.toNat = 1037
  · rw [emitStep_of_last hlast]
    exact ⟨hstrat, hfit, by simp [Config.runLength], nofun, by simp [herr0], nofun, fun _ => hcmd hne⟩
  · rw [emitStep_of_not_last hlast]
    have ht' : s.t.toNat + 1 < 1038 := by simp only [Config.runLength] at ht; omega
    have hnat : (BitVec.ofNat 11 (s.t.toNat + 1)).toNat = s.t.toNat + 1 := Nat.mod_eq_of_lt (by omega)
    exact ⟨hstrat, hfit, hnat.symm ▸ ht'.le, fun _ => ⟨hnat.symm ▸ ht', hdone, herr0⟩, herr, hrec, hcmd⟩

/-! ## Every step -/

theorem step_legalState {s s' : State} (hs : LegalState s) (h : step s = .next s') : LegalState s' := by
  by_cases hrst : resets s
  · obtain rfl := Host.Outcome.next.inj ((step_of_reset hrst).symm.trans h)
    exact legalState_resetFor s.params
  · rcases step_effects h hrst with ⟨⟨hv, -⟩, -, -, rfl⟩ | ⟨c, e, -, -, he, rfl⟩ | ⟨i, ⟨c, -, -, hi⟩, heff⟩ | rfl | rfl
    · exact legalState_emitStep (s := s.pastEdge) hs (wValid_iff.1 hv).2
    · exact legalState_raise (s := s.pastEdge.consumeCmd) hs he (errorOf_ne_none he)
    · exact heff.legalState hi hs
    · exact hs
    · exact hs

/-- Settles O9: `step_effects` names the kinds of step, and each keeps the invariant. -/
theorem stepKeepsTheInvariant : Obligations.StepKeepsTheInvariant := by
  unfold Obligations.StepKeepsTheInvariant
  exact fun s s' => step_legalState

theorem legalState_of_reachable {s : State} (h : Reachable s) : LegalState s := by
  obtain ⟨n, p, cmds, es, later, hrun⟩ := h
  exact runSteps_keeps (fun _ _ => step_legalState) n (resetWith p cmds es later) s (legalState_resetFor p) hrun

/-- Settles O10: the clauses of `LegalState`, with the ranges that the types of the registers give. -/
theorem reachableStatesAreLegal : Obligations.ReachableStatesAreLegal := by
  unfold Obligations.ReachableStatesAreLegal
  intro s hs
  obtain ⟨hstrat, hfit, ht, hrun, herr, hrec, -⟩ := legalState_of_reachable hs
  have hsize : ∀ z : Droplet, z.code.toNat ≤ 2 := by rintro (_ | _ | _) <;> decide
  have hqual : ∀ q : Quality, q.code.toNat ≤ 5 := by rintro (_ | _ | _ | _ | _ | _) <;> decide
  have hst : ∀ st : RunState, st.code.toNat ≤ 2 := by rintro (_ | _ | _) <;> decide
  have hcode : ∀ e : ErrCode, e.code = 0 ↔ e = .none := by
    rintro (_ | _ | _ | _ | _ | _ | _ | _) <;> decide
  refine ⟨hsize _, hqual _, by rw [hstrat]; rfl, fits_iff.1 hfit, ht, hst _, fun h => ?_, ?_, hrec,
    fun n => selected_bounds, fun ch n hch hsel => ?_⟩
  · obtain ⟨hlt, hdone, herr0⟩ := hrun h
    exact ⟨hlt, hdone, (hcode _).2 herr0⟩
  · rw [Ne, hcode]
    exact herr
  · simpa [nozzleMax_eq, hch] using selected_bounds hsel

end Sys2Proof.Machine

/-! The access table (10_state.md R29): which step writes which register. -/

namespace Sys2Proof.Machine

/-! ## The writers among the commands -/

theorem Effect.selected {i : Instr} {s s' : State} (h : Effect i s s') (ch : Channel) (n : Nat)
    (hne : s'.selected ch n ≠ s.selected ch n) : (i = .clr ∧ s'.selected ch n = false) ∨
      ∃ v : BitVec 8, v.toNat = n ∧ i = .sel ch v ∧ s'.selected ch n = true := by
  cases h with
  | clr => exact .inl ⟨rfl, selected_clearSets s ch n⟩
  | sel _ ch' v h1 h2 =>
    rw [selected_select s ch' ch _ n h1 h2] at hne ⊢
    by_cases hn : ch = ch' ∧ n = v.toNat
    · obtain ⟨rfl, rfl⟩ := hn
      exact .inr ⟨v, rfl, rfl, by simp⟩
    · have hother : (ch == ch' && n == v.toNat) = false := by simpa using hn
      simp [hother] at hne
  | offs _ g k => exact absurd (selected_congr (by simp) (by simp) (by simp) (by simp) ch n) hne
  | _ => exact absurd rfl hne

theorem Effect.size_write {i : Instr} {s s' : State} (h : Effect i s s') (hne : s'.size ≠ s.size) :
    i = .size s'.size.code := by
  cases h with
  | size => rfl
  | _ => simp at hne

theorem Effect.qual_write {i : Instr} {s s' : State} (h : Effect i s s') (hne : s'.qual ≠ s.qual) :
    i = .qual s'.qual.code := by
  cases h with
  | qual => rfl
  | _ => simp at hne

theorem Effect.strat_write {i : Instr} {s s' : State} (h : Effect i s s') (hne : s'.strat ≠ s.strat) :
    i = .strat s'.strat := by
  cases h with
  | strat => rfl
  | _ => simp at hne

theorem Effect.off_write {i : Instr} {s s' : State} (h : Effect i s s') (g : Signal)
    (hne : offsetOf s'.off g ≠ offsetOf s.off g) : ∃ k : BitVec 8, offsetOf s'.off g = k.toNat ∧ i = .offs g.code k := by
  cases h with
  | offs _ g' k =>
    rw [offsetOf_setOffset] at hne ⊢
    by_cases hg : g = g'
    · exact ⟨k, if_pos hg, by rw [hg]⟩
    · exact absurd (if_neg hg) hne
  | _ => simp at hne

theorem Effect.t_write {i : Instr} {s s' : State} (h : Effect i s s') (hne : s'.t ≠ s.t) : i = .start ∧ s'.t = 0 := by
  cases h with
  | start => exact ⟨rfl, rfl⟩
  | _ => simp at hne

theorem Effect.st_write {i : Instr} {s s' : State} (h : Effect i s s') (hne : s'.st ≠ s.st) :
    (i = .start ∧ s'.st = .run) ∨ (i = .ack ∧ s'.st = .idle) := by
  cases h with
  | start => exact .inl ⟨rfl, rfl⟩
  | ack => exact .inr ⟨rfl, rfl⟩
  | _ => simp at hne

theorem Effect.done_write {i : Instr} {s s' : State} (h : Effect i s s') (hne : s'.done ≠ s.done) :
    (i = .start ∨ i = .ack) ∧ s'.done = false := by
  cases h with
  | start => exact ⟨.inl rfl, rfl⟩
  | ack => exact ⟨.inr rfl, rfl⟩
  | _ => simp at hne

theorem Effect.err_write {i : Instr} {s s' : State} (h : Effect i s s') (hne : s'.err ≠ s.err ∨ s'.errcmd ≠ s.errcmd) :
    i = .ack ∧ s'.err = .none ∧ s'.errcmd = 0 := by
  cases h with
  | ack => exact ⟨rfl, rfl, rfl⟩
  | _ => simp at hne

/-! ## The emit step -/

theorem emitStep_selected (s : State) (ch : Channel) (n : Nat) : (emitStep s).selected ch n = s.selected ch n :=
  selected_congr (emitStep_nsetK s) (emitStep_nsetC s) (emitStep_nsetM s) (emitStep_nsetY s) ch n

/-- The emit step advances `T` by one, at the last word too: `L` is one more than its index. -/
theorem toNat_emitStep_t {s : State} (ht : s.t.toNat < Config.runLength) : (emitStep s).t.toNat = s.t.toNat + 1 := by
  simp only [Config.runLength] at ht
  by_cases hlast : s.t.toNat = 1037
  · rw [emitStep_of_last hlast, hlast]
    rfl
  · rw [emitStep_of_not_last hlast]
    exact Nat.mod_eq_of_lt (by omega)

theorem emitStep_st_write {s : State} (hne : (emitStep s).st ≠ s.st) : atLastWord s = true ∧ (emitStep s).st = .idle := by
  rw [emitStep_st] at hne ⊢
  split at hne
  · exact ⟨‹_›, if_pos ‹_›⟩
  · exact absurd rfl hne

theorem emitStep_done_write {s : State} (hne : (emitStep s).done ≠ s.done) :
    atLastWord s = true ∧ (emitStep s).done = true := by
  rw [emitStep_done] at hne ⊢
  split at hne
  · exact ⟨‹_›, if_pos ‹_›⟩
  · exact absurd rfl hne

/-- Settles O31: an emit step writes `T`, `ST` and `DONE`, error entry `ST`, `ERR` and `ERRCMD`, a command what its effect
writes, and any other edge no register. -/
theorem registersChangeOnlyByTheirWriters : Obligations.RegistersChangeOnlyByTheirWriters := by
  unfold Obligations.RegistersChangeOnlyByTheirWriters
  intro s s' h hno
  have hsame : ∀ {α : Type} {a b : α} {p : Prop}, a = b → a ≠ b → p := fun heq hne => absurd heq hne
  rcases step_effects h hno with ⟨hemits, -, ht, rfl⟩ | ⟨c, e, hidle, hacc, he, rfl⟩ | ⟨i, hi, heff⟩ | hkept
  · refine ⟨fun ch n => hsame (emitStep_selected _ ch n), hsame (emitStep_size _), hsame (emitStep_qual _),
      hsame (emitStep_strat _), fun g => hsame (by rw [emitStep_off]; rfl),
      fun _ => .inr ⟨hemits, toNat_emitStep_t (s := s.pastEdge) ht⟩, fun hne => ?_, fun hne => ?_, ?_⟩
    · exact .inr (.inl ⟨hemits, emitStep_st_write (s := s.pastEdge) hne⟩)
    · exact .inl ⟨hemits, emitStep_done_write (s := s.pastEdge) hne⟩
    · rintro (hne | hne)
      · exact hsame (emitStep_err _) hne
      · exact hsame (emitStep_errcmd _) hne
  · exact ⟨fun ch n => hsame rfl, hsame rfl, hsame rfl, hsame rfl, fun g => hsame rfl, hsame rfl,
      fun _ => .inr (.inr (.inr ⟨c, hidle, hacc, he, rfl⟩)), hsame rfl, fun _ => .inr ⟨c, hidle, hacc, he, rfl⟩⟩
  · refine ⟨fun ch n hne => ?_, fun hne => heff.size_write hne ▸ hi, fun hne => heff.qual_write hne ▸ hi,
      fun hne => heff.strat_write hne ▸ hi, fun g hne => ?_, fun hne => ?_, fun hne => ?_, fun hne => ?_, fun hne => ?_⟩
    · rcases heff.selected ch n hne with ⟨rfl, hclr⟩ | ⟨v, hv, rfl, hsel⟩
      · exact .inl ⟨hi, hclr⟩
      · exact .inr ⟨v, hv, hi, hsel⟩
    · obtain ⟨k, hk, rfl⟩ := heff.off_write g hne
      exact ⟨k, hk, hi⟩
    · obtain ⟨rfl, ht⟩ := heff.t_write hne
      exact .inl ⟨hi, ht⟩
    · rcases heff.st_write hne with ⟨rfl, hst⟩ | ⟨rfl, hst⟩
      · exact .inl ⟨hi, hst⟩
      · exact .inr (.inr (.inl ⟨hi, hst⟩))
    · obtain ⟨rfl | rfl, hdone⟩ := heff.done_write hne
      · exact .inr ⟨.inl hi, hdone⟩
      · exact .inr ⟨.inr hi, hdone⟩
    · obtain ⟨rfl, herr⟩ := heff.err_write hne
      exact .inl ⟨hi, herr⟩
  · rcases hkept with rfl | rfl <;>
      exact ⟨fun ch n => hsame rfl, hsame rfl, hsame rfl, hsame rfl, fun g => hsame rfl, hsame rfl, hsame rfl, hsame rfl,
        by simp⟩

end Sys2Proof.Machine

/-! `CFG_WF` (00_scope.md R8): the check as the constraints it stands for, and the blocks that configurations make. -/

namespace Sys2Proof

/-! ## Each part of the check -/

theorem wfBlack_iff {tb : Tables} : tb.wfBlack = true ↔
    (∀ n, 1 ≤ n → n ≤ 90 → tb.kmap n ≤ 254 ∧ tb.kmap n % 2 = 0) ∧
    (∀ n n', 1 ≤ n → n ≤ 90 → 1 ≤ n' → n' ≤ 90 → n ≠ n' →
      tb.kmap n + 2 ≤ tb.kmap n' ∨ tb.kmap n' + 2 ≤ tb.kmap n) := by
  simp only [Tables.wfBlack, List.all_eq_true, Machine.mem_nozzlesUpTo, Bool.and_eq_true, Bool.or_eq_true,
    decide_eq_true_eq, beq_iff_eq, Machine.apart_iff, Config.nk]
  constructor
  · intro h
    exact ⟨fun n h1 h2 => (h n ⟨h1, h2⟩).1,
      fun n n' h1 h2 h1' h2' hne => ((h n ⟨h1, h2⟩).2 n' ⟨h1', h2'⟩).resolve_left hne⟩
  · rintro ⟨hone, htwo⟩ n ⟨h1, h2⟩
    exact ⟨hone n h1 h2, fun n' ⟨h1', h2'⟩ => or_iff_not_imp_left.2 (htwo n n' h1 h2 h1' h2')⟩

theorem wfColour_iff {tb : Tables} : tb.wfColour = true ↔
    (∀ ch n, ch ≠ .k → 1 ≤ n → n ≤ 30 → tb.pairBase ch n ≤ 254) ∧
    (∀ ch ch' n n', ch ≠ .k → ch' ≠ .k → 1 ≤ n → n ≤ 30 → 1 ≤ n' → n' ≤ 30 → (ch, n) ≠ (ch', n') →
      tb.pairBase ch n + 2 ≤ tb.pairBase ch' n' ∨ tb.pairBase ch' n' + 2 ≤ tb.pairBase ch n) := by
  simp only [Tables.wfColour, List.all_eq_true, Prod.forall, Machine.mem_colourNozzles, Bool.and_eq_true,
    Bool.or_eq_true, decide_eq_true_eq, beq_iff_eq, Machine.apart_iff]
  constructor
  · intro h
    exact ⟨fun ch n hc h1 h2 => (h ch n ⟨hc, h1, h2⟩).1,
      fun ch ch' n n' hc hc' h1 h2 h1' h2' hne => ((h ch n ⟨hc, h1, h2⟩).2 ch' n' ⟨hc', h1', h2'⟩).resolve_left hne⟩
  · rintro ⟨hone, htwo⟩ ch n ⟨hc, h1, h2⟩
    exact ⟨hone ch n hc h1 h2,
      fun ch' n' ⟨hc', h1', h2'⟩ => or_iff_not_imp_left.2 (htwo ch ch' n n' hc hc' h1 h2 h1' h2')⟩

theorem pairsOnly_iff {p : BitVec 64} : pairsOnly p = true ↔
    ∀ i, i < 64 → p.getLsbD i = true → (1 ≤ i ∧ p.getLsbD (i - 1) = true) ∨ p.getLsbD (i + 1) = true := by
  simp only [pairsOnly, Bool.or_assoc, List.all_eq_true, List.mem_range, Bool.or_eq_true, Bool.and_eq_true,
    Bool.not_eq_true', decide_eq_true_eq, Config.qSlots, ← Bool.not_eq_true, ← imp_iff_not_or]
  rfl

theorem wfQuality_iff {tb : Tables} : tb.wfQuality = true ↔ ∀ q, pairsOnly (tb.pattern q) = true := by
  rw [Tables.wfQuality, List.all_eq_true]
  exact forall_congr' fun q => by cases q <;> simp

theorem paramsWf_iff {w : Nat} {o : Offsets} : paramsWf w o = true ↔ 6 ≤ w ∧ w ≤ 256 ∧ ∀ g, Machine.offsetOf o g < w := by
  simp only [paramsWf, Bool.and_eq_true, decide_eq_true_eq, Machine.fits_iff, and_assoc]

theorem tables_wf_iff {tb : Tables} :
    tb.wf = true ↔ tb.wfBlack = true ∧ tb.wfColour = true ∧ tb.wfQuality = true := by
  simp only [Tables.wf, Bool.and_eq_true, and_assoc]

theorem cfgWf_iff {tb : Tables} {w : Nat} {o : Offsets} :
    cfgWf tb w o = true ↔ tb.wf = true ∧ paramsWf w o = true := Bool.and_eq_true_iff

/-! ## The blocks that configurations make -/

/-- A bound on the three colour maps is one on the bases of all channels but black. -/
theorem colour_bases_le_iff {tb : Tables} {b : Nat} :
    (∀ n, 1 ≤ n → n ≤ 30 → tb.cmap n ≤ b ∧ tb.mmap n ≤ b ∧ tb.ymap n ≤ b) ↔
      ∀ ch n, ch ≠ .k → 1 ≤ n → n ≤ 30 → tb.pairBase ch n ≤ b := by
  constructor
  · intro h ch n hch h1 h2
    obtain ⟨hc, hm, hy⟩ := h n h1 h2
    cases ch with
    | k => exact absurd rfl hch
    | c => exact hc
    | m => exact hm
    | y => exact hy
  · exact fun h n h1 h2 => ⟨h .c n nofun h1 h2, h .m n nofun h1 h2, h .y n nofun h1 h2⟩

/-- Settles O34: the parts of the check one by one, and `configure` answers a block exactly when the check is true. -/
theorem configurationsThatFailTheCheckAreRefused : Obligations.ConfigurationsThatFailTheCheckAreRefused := by
  unfold Obligations.ConfigurationsThatFailTheCheckAreRefused
  refine fun tb w o => ⟨?_, fun h => ?_, fun h => dif_neg (Bool.eq_false_iff.1 h)⟩
  · rw [cfgWf_iff, tables_wf_iff, wfBlack_iff, wfColour_iff, wfQuality_iff, paramsWf_iff, colour_bases_le_iff]
    simp only [pairsOnly_iff, and_assoc]
  · exact ⟨⟨w, o, (cfgWf_iff.1 h).2⟩, dif_pos h, rfl, rfl⟩

/-! ## The block's own configuration -/

/-- The example mapping gives each colour its own 64 slots, in the order of the channel codes, two to a nozzle. -/
theorem exTables_pairBase {ch : Channel} (n : Nat) (hc : ch ≠ .k) :
    exTables.pairBase ch n + 64 = 64 * ch.code.toNat + 2 * (n - 1) := by
  cases ch with
  | k => exact absurd rfl hc
  | c => exact Nat.add_comm _ _
  | m => exact Nat.add_right_comm 64 _ 64
  | y => exact Nat.add_right_comm 128 _ 64

/-- The example mapping passes the check (40_slot_mapping.md R79). -/
theorem exTables_wf : exTables.wf = true := by
  refine tables_wf_iff.2 ⟨wfBlack_iff.2 ⟨fun n h1 h2 => ?_, fun n n' h1 h2 h1' h2' hne => ?_⟩,
    wfColour_iff.2 ⟨fun ch n hc h1 h2 => ?_, fun ch ch' n n' hc hc' h1 h2 h1' h2' hne => ?_⟩,
    wfQuality_iff.2 fun q => ?_⟩
  · simp only [exTables]
    split_ifs <;> omega
  · simp only [exTables]
    split_ifs <;> omega
  · have hb := exTables_pairBase n hc
    omega
  · have hb := exTables_pairBase n hc
    have hb' := exTables_pairBase n' hc'
    have hdiff : ch.code.toNat ≠ ch'.code.toNat ∨ n ≠ n' := by
      by_contra hsame
      obtain ⟨hcode, rfl⟩ := not_or.1 hsame |>.imp not_not.1 not_not.1
      have hch : ch = ch' := by rw [← Channel.ofCode_code ch, BitVec.eq_of_toNat_eq hcode, Channel.ofCode_code]
      exact hne (by rw [hch])
    omega
  · cases q <;> decide

/-- The block's tables pass the check, whatever the open tables are (log 5). -/
theorem config_tables_wf : Config.tables.wf = true := by
  unfold Config.tables
  split
  · assumption
  · exact exTables_wf

/-- Settles O33: the tables' part of the check is true of the block's tables, and every block's parameters carry the rest. -/
theorem configurationIsWellFormed : Obligations.ConfigurationIsWellFormed := by
  unfold Obligations.ConfigurationIsWellFormed
  refine ⟨fun w o => ?_, fun s => cfgWf_iff.2 ⟨config_tables_wf, s.params.wf⟩, ?_, rfl, ?_, rfl, rfl⟩
  · rw [cfgWf_iff, paramsWf_iff, and_iff_right config_tables_wf]
  · exact Machine.configure_eq_some_iff.2 ⟨config_tables_wf, rfl, rfl⟩
  · rintro (_ | _ | _ | _ | _ | _) <;> rfl

end Sys2Proof

/-! The slot maps of a well-formed configuration (40_slot_mapping.md R77, R78) and the number of slots set (R83). -/

namespace Sys2Proof.Machine

/-! ## One nozzle, or two -/

/-- Different colour nozzles of one channel have different slots. -/
theorem pairBase_ne_of_ne {tb : Tables} (h : tb.wf = true) {ch : Channel} {n n' : Nat} (hc : ch ≠ .k) (h1 : 1 ≤ n)
    (h2 : n ≤ 30) (h1' : 1 ≤ n') (h2' : n' ≤ 30) (hne : n ≠ n') : tb.pairBase ch n ≠ tb.pairBase ch n' := by
  have hapart := wf_colour_apart h hc h1 h2 hc h1' h2' (by simpa using hne)
  omega

/-- Settles O35: bases at distance 2 differ (W3, W5). -/
theorem slotMapsAreInjective : Obligations.SlotMapsAreInjective := by
  unfold Obligations.SlotMapsAreInjective
  refine fun tb n n' hwf h1 h1' hne => ⟨fun h2 h2' => ?_, fun h2 h2' => ?_⟩
  · have hapart := wf_black_apart hwf h1 h2 h1' h2' hne
    simp only [blackSlot, Tables.pairBase]
    omega
  · exact ⟨pairBase_ne_of_ne hwf nofun h1 h2 h1' h2' hne, pairBase_ne_of_ne hwf nofun h1 h2 h1' h2' hne,
      pairBase_ne_of_ne hwf nofun h1 h2 h1' h2' hne⟩

/-- Colour nozzles that share a slot are one nozzle (W5). -/
theorem colour_nozzle_eq_of_inPair {tb : Tables} (h : tb.wf = true) {ch ch' : Channel} {n n' i : Nat} (hc : ch ≠ .k)
    (h1 : 1 ≤ n) (h2 : n ≤ 30) (hc' : ch' ≠ .k) (h1' : 1 ≤ n') (h2' : n' ≤ 30) (hi : inPair tb ch n i = true)
    (hi' : inPair tb ch' n' i = true) : (ch, n) = (ch', n') := by
  by_contra hne
  have hapart := wf_colour_apart h hc h1 h2 hc' h1' h2' hne
  rw [inPair_iff] at hi hi'
  omega

/-- Black nozzles that share a slot are one nozzle (W3). -/
theorem black_nozzle_eq_of_inPair {tb : Tables} (h : tb.wf = true) {n n' i : Nat} (h1 : 1 ≤ n) (h2 : n ≤ 90)
    (h1' : 1 ≤ n') (h2' : n' ≤ 90) (hi : inPair tb .k n i = true) (hi' : inPair tb .k n' i = true) : n = n' := by
  by_contra hne
  have hapart := wf_black_apart h h1 h2 h1' h2' hne
  simp only [inPair_iff, Tables.pairBase] at hi hi'
  omega

/-- Settles O36: W1 and W2 bound the black bases, W4 the colour ones, and W5 keeps the colour pairs apart. -/
theorem slotPairsAreInBoundsAndDisjoint : Obligations.SlotPairsAreInBoundsAndDisjoint := by
  unfold Obligations.SlotPairsAreInBoundsAndDisjoint
  refine fun tb hwf => ⟨fun n h1 h2 => ?_, fun ch n i hc h1 h2 hi => ?_,
    fun ch ch' n n' i hc hc' h1 h2 h1' h2' hi hi' => ?_⟩
  · have hk := wf_black hwf h1 h2
    simp only [blackSlot, Tables.pairBase]
    omega
  · have hle := wf_colour hwf hc h1 h2
    rw [inPair_iff] at hi
    omega
  · exact Prod.ext_iff.1 (colour_nozzle_eq_of_inPair hwf hc h1 h2 hc' h1' h2' hi hi')

/-! ## Counting the set slots

A buffer's set slots are the pairs of a list of nozzles of one or of several channels; pairs that do not meet give two slots
each. -/

/-- The selected nozzles of several channels, each with its channel. -/
def selectedOf (s : State) (chs : List Channel) : List (Channel × Nat) :=
  chs.flatMap fun ch => (selectedNozzles s ch).map (Prod.mk ch)

theorem mem_selectedOf {s : State} {chs : List Channel} {p : Channel × Nat} :
    p ∈ selectedOf s chs ↔ p.1 ∈ chs ∧ s.selected p.1 p.2 = true := by
  obtain ⟨ch, n⟩ := p
  simp only [selectedOf, List.mem_flatMap, List.mem_map, mem_selectedNozzles, Prod.mk.injEq]
  constructor
  · rintro ⟨ch', hch, n', hn, rfl, rfl⟩
    exact ⟨hch, hn⟩
  · rintro ⟨hch, hn⟩
    exact ⟨ch, hch, n, hn, rfl, rfl⟩

theorem nodup_selectedOf {s : State} {chs : List Channel} (h : chs.Nodup) : (selectedOf s chs).Nodup := by
  refine List.nodup_flatMap.2 ⟨fun ch _ => (nodup_selectedNozzles s ch).map (Prod.mk_right_injective ch), ?_⟩
  refine h.imp fun hne => ?_
  rintro ⟨ch, n⟩ hp hp'
  obtain ⟨m, -, hm⟩ := List.mem_map.1 hp
  obtain ⟨m', -, hm'⟩ := List.mem_map.1 hp'
  cases hm
  cases hm'
  exact hne rfl

/-- A list of nozzles whose pairs lie in the buffer and do not meet sets two slots for each. -/
theorem ones_of_pairs {tb : Tables} {f : Nat → Bool} {ns : List (Channel × Nat)} (hnodup : ns.Nodup)
    (hf : ∀ i, f i = true ↔ ∃ p ∈ ns, inPair tb p.1 p.2 i = true)
    (hbound : ∀ p ∈ ns, tb.pairBase p.1 p.2 ≤ 254)
    (hmeet : ∀ p ∈ ns, ∀ q ∈ ns, ∀ i, inPair tb p.1 p.2 i = true → inPair tb q.1 q.2 i = true → p = q) :
    ones ((List.range 256).map f) = 2 * ns.length := by
  have hslots : ((List.range 256).filter f).Perm
      (ns.flatMap fun p => [tb.pairBase p.1 p.2, tb.pairBase p.1 p.2 + 1]) := by
    refine (List.perm_ext_iff_of_nodup (List.nodup_range.filter f) (List.nodup_flatMap.2 ⟨by simp, ?_⟩)).2 fun i => ?_
    · refine hnodup.imp_of_mem fun {p q} hp hq hne i hi hi' => hne (hmeet p hp q hq i ?_ ?_)
      · exact inPair_iff.2 (by simpa using hi)
      · exact inPair_iff.2 (by simpa using hi')
    · simp only [List.mem_filter, List.mem_range, hf, List.mem_flatMap, List.mem_cons, List.not_mem_nil, or_false,
        inPair_iff]
      refine and_iff_right_of_imp ?_
      rintro ⟨p, hp, hi⟩
      have := hbound p hp
      omega
  rw [ones_map_range, hslots.length_eq, List.length_flatMap]
  simp [Nat.mul_comm]

theorem selK_iff_selectedOf {tb : Tables} {s : State} {i : Nat} :
    selK tb s i = true ↔ ∃ p ∈ selectedOf s [.k], inPair tb p.1 p.2 i = true := by
  simp [selK, slotSetBy_iff, mem_selectedOf]

theorem selC_iff_selectedOf {tb : Tables} {s : State} {i : Nat} :
    selC tb s i = true ↔ ∃ p ∈ selectedOf s [.c, .m, .y], inPair tb p.1 p.2 i = true := by
  simp only [selC_iff, slotSetBy_iff, mem_selectedOf, Prod.exists, List.mem_cons, List.not_mem_nil, or_false]
  constructor
  · rintro (⟨n, hn, hi⟩ | ⟨n, hn, hi⟩ | ⟨n, hn, hi⟩)
    · exact ⟨.c, n, ⟨.inl rfl, hn⟩, hi⟩
    · exact ⟨.m, n, ⟨.inr (.inl rfl), hn⟩, hi⟩
    · exact ⟨.y, n, ⟨.inr (.inr rfl), hn⟩, hi⟩
  · rintro ⟨ch, n, ⟨rfl | rfl | rfl, hn⟩, hi⟩
    · exact .inl ⟨n, hn, hi⟩
    · exact .inr (.inl ⟨n, hn, hi⟩)
    · exact .inr (.inr ⟨n, hn, hi⟩)

/-- The colour buffer's channels are those other than black. -/
theorem colour_of_mem {s : State} {p : Channel × Nat} (h : p ∈ selectedOf s [.c, .m, .y]) :
    p.1 ≠ .k ∧ 1 ≤ p.2 ∧ p.2 ≤ 30 := by
  obtain ⟨hch, hn⟩ := mem_selectedOf.1 h
  have hne : p.1 ≠ .k := by rintro hk; simp [hk] at hch
  obtain ⟨h1, h2⟩ := selected_bounds hn
  rw [nozzleMax_eq, if_neg hne] at h2
  exact ⟨hne, h1, h2⟩

theorem ones_bufK {tb : Tables} (h : tb.wf = true) (s : State) : ones (bufK tb s) = 2 * (selectedNozzles s .k).length := by
  have hcount := ones_of_pairs (tb := tb) (f := selK tb s) (nodup_selectedOf (by simp : [Channel.k].Nodup))
    (fun i => selK_iff_selectedOf) (fun p hp => pairBase_le h (mem_selectedOf.1 hp).2) fun p hp q hq i hi hi' => ?_
  · simpa [selectedOf, bufK, Config.selSlots] using hcount
  · obtain ⟨ch, n⟩ := p
    obtain ⟨ch', n'⟩ := q
    obtain ⟨hch, hn⟩ := mem_selectedOf.1 hp
    obtain ⟨hch', hn'⟩ := mem_selectedOf.1 hq
    obtain rfl := List.mem_singleton.1 hch
    obtain rfl := List.mem_singleton.1 hch'
    obtain ⟨h1, h2⟩ := selected_bounds hn
    obtain ⟨h1', h2'⟩ := selected_bounds hn'
    exact congrArg (Prod.mk _) (black_nozzle_eq_of_inPair h h1 h2 h1' h2' hi hi')

theorem ones_bufC {tb : Tables} (h : tb.wf = true) (s : State) : ones (bufC tb s) =
    2 * ((selectedNozzles s .c).length + (selectedNozzles s .m).length + (selectedNozzles s .y).length) := by
  have hcount := ones_of_pairs (tb := tb) (f := selC tb s) (nodup_selectedOf (by simp : [Channel.c, .m, .y].Nodup))
    (fun i => selC_iff_selectedOf) (fun p hp => pairBase_le h (mem_selectedOf.1 hp).2) fun p hp q hq i hi hi' => ?_
  · simpa [selectedOf, bufC, Config.selSlots, Nat.add_assoc] using hcount
  · obtain ⟨hc, h1, h2⟩ := colour_of_mem hp
    obtain ⟨hc', h1', h2'⟩ := colour_of_mem hq
    exact colour_nozzle_eq_of_inPair h hc h1 h2 hc' h1' h2' hi hi'

theorem length_selectedNozzles_le (s : State) (ch : Channel) : (selectedNozzles s ch).length ≤ nozzleMax ch := by
  refine (List.length_filter_le ..).trans ?_
  simp [nozzlesUpTo]

/-- A slot of a nozzle that is not selected is not set: no selected nozzle shares it (41_selection_builder.md R83). -/
theorem selK_of_not_selected {tb : Tables} (h : tb.wf = true) {s : State} {n i : Nat} (h1 : 1 ≤ n) (h2 : n ≤ 90)
    (hn : s.selected .k n = false) (hi : inPair tb .k n i = true) : selK tb s i = false := by
  refine Bool.eq_false_iff.2 fun hset => ?_
  obtain ⟨n', hn', hi'⟩ := slotSetBy_iff.1 hset
  obtain ⟨h1', h2'⟩ := selected_bounds hn'
  obtain rfl := black_nozzle_eq_of_inPair h h1 h2 h1' h2' hi hi'
  cases hn.symm.trans hn'

theorem selC_of_not_selected {tb : Tables} (h : tb.wf = true) {s : State} {ch : Channel} {n i : Nat} (hc : ch ≠ .k)
    (h1 : 1 ≤ n) (h2 : n ≤ 30) (hn : s.selected ch n = false) (hi : inPair tb ch n i = true) : selC tb s i = false := by
  refine Bool.eq_false_iff.2 fun hset => ?_
  obtain ⟨⟨ch', n'⟩, hp, hi'⟩ := selC_iff_selectedOf.1 hset
  obtain ⟨hc', h1', h2'⟩ := colour_of_mem hp
  cases colour_nozzle_eq_of_inPair h hc h1 h2 hc' h1' h2' hi hi'
  cases hn.symm.trans (mem_selectedOf.1 hp).2

/-- Settles O38: the pairs of the selected nozzles of a buffer do not meet, so each counts twice. -/
theorem twoSlotsPerSelectedNozzle : Obligations.TwoSlotsPerSelectedNozzle := by
  unfold Obligations.TwoSlotsPerSelectedNozzle
  refine fun tb s hwf => ⟨ones_bufK hwf s, ones_bufC hwf s, fun n i => selK_of_not_selected hwf,
    fun ch n i => selC_of_not_selected hwf, ?_, ?_⟩
  · have hk := length_selectedNozzles_le s .k
    simp only [nozzleMax, Config.nk] at hk
    rw [ones_bufK hwf]
    omega
  · have hc := length_selectedNozzles_le s .c
    have hm := length_selectedNozzles_le s .m
    have hy := length_selectedNozzles_le s .y
    simp only [nozzleMax, Config.nColour] at hc hm hy
    rw [ones_bufC hwf]
    omega

/-! ## Monotonicity -/

theorem slotSetBy_mono {tb : Tables} {s s' : State} {ch : Channel} {i : Nat}
    (h : ∀ n, s.selected ch n = true → s'.selected ch n = true) (hset : slotSetBy tb s ch i = true) :
    slotSetBy tb s' ch i = true := by
  obtain ⟨n, hn, hi⟩ := slotSetBy_iff.1 hset
  exact slotSetBy_iff.2 ⟨n, h n hn, hi⟩

/-- Settles O39: a slot is set by a selected nozzle, and that nozzle stays selected. -/
theorem selectionIsMonotoneInTheSets : Obligations.SelectionIsMonotoneInTheSets := by
  unfold Obligations.SelectionIsMonotoneInTheSets
  refine fun tb s s' i => ⟨slotSetBy_mono, fun h => ?_⟩
  rw [selC_iff, selC_iff]
  exact Or.imp (slotSetBy_mono fun n => h .c n nofun)
    (Or.imp (slotSetBy_mono fun n => h .m n nofun) (slotSetBy_mono fun n => h .y n nofun))

end Sys2Proof.Machine

/-! The quality patterns (42_quality_table.md R88, R90). -/

namespace Sys2Proof.Machine

/-- The indices at which a pattern has an adjacent pair. -/
def pairIndices (p : BitVec 64) : List Nat := (List.range 63).filter fun j => p.getLsbD j && p.getLsbD (j + 1)

theorem mem_pairIndices {p : BitVec 64} {j : Nat} :
    j ∈ pairIndices p ↔ j ≤ 62 ∧ p.getLsbD j = true ∧ p.getLsbD (j + 1) = true := by
  simp only [pairIndices, List.mem_filter, List.mem_range, Bool.and_eq_true, Nat.lt_succ_iff]

/-- A set slot with a set neighbour lies in one of the pattern's pairs, and conversely. -/
theorem getLsbD_iff_pairIndices {p : BitVec 64} (h : pairsOnly p = true) {i : Nat} (hi : i < 64) :
    p.getLsbD i = true ↔ ∃ j ∈ pairIndices p, i = j ∨ i = j + 1 := by
  simp only [mem_pairIndices]
  constructor
  · intro hset
    rcases pairsOnly_iff.1 h i hi hset with ⟨h1, hprev⟩ | hnext
    · obtain ⟨j, rfl⟩ := Nat.exists_eq_add_of_le' h1
      exact ⟨j, ⟨by omega, hprev, hset⟩, .inr rfl⟩
    · have hlt := BitVec.lt_of_getLsbD hnext
      exact ⟨i, ⟨by omega, hset, hnext⟩, .inl rfl⟩
  · rintro ⟨j, ⟨-, hj, hj1⟩, rfl | rfl⟩
    · exact hj
    · exact hj1

/-- In a union of pairs every set slot has its partner set. -/
theorem pairsOnly_of_pairs {p : BitVec 64} {js : List Nat} (hjs : ∀ j ∈ js, j ≤ 62)
    (h : ∀ i, i < 64 → (p.getLsbD i = true ↔ ∃ j ∈ js, i = j ∨ i = j + 1)) : pairsOnly p = true := by
  refine pairsOnly_iff.2 fun i hi hset => ?_
  obtain ⟨j, hj, rfl | rfl⟩ := (h i hi).1 hset
  · exact .inr ((h (i + 1) (by have := hjs i hj; omega)).2 ⟨i, hj, .inr rfl⟩)
  · exact .inl ⟨by omega, (h j (by omega)).2 ⟨j, hj, .inl rfl⟩⟩

/-- Settles O41: the pattern's own adjacent pairs are the list of indices. -/
theorem qualityPatternsAreUnionsOfPairs : Obligations.QualityPatternsAreUnionsOfPairs := by
  unfold Obligations.QualityPatternsAreUnionsOfPairs
  refine ⟨fun p => ⟨fun h => ?_, fun ⟨js, hjs, h⟩ => pairsOnly_of_pairs hjs h⟩, fun tb => wf_quality, by decide⟩
  exact ⟨pairIndices p, fun j hj => (mem_pairIndices.1 hj).1, fun i => getLsbD_iff_pairIndices h⟩

/-- Settles O42 by the slots that the lookup's loop writes. -/
theorem qualityListSetsItsPairs : Obligations.QualityListSetsItsPairs := by
  unfold Obligations.QualityListSetsItsPairs
  exact fun js hjs => ⟨length_qualFromList hjs, fun i _ => getD_qualFromList hjs i⟩

end Sys2Proof.Machine

/-! The lines of a run and its words (43_phase_sequencer.md sections 3 and 4, 44_word_packer.md R122 to R127). -/

namespace Sys2Proof

theorem ones_rep (k : Nat) (p : Bits) : ones (rep k p) = k * ones p := by
  simp [ones, rep, List.count_flatten]

namespace Machine

/-! ## Raw lines -/

theorem extraSample_eq (z : Droplet) : extraSample z = if z = .small then 1 else 0 := by cases z <;> rfl

/-- Settles O43: the extra clock sample of the small size makes up the difference (R99). -/
theorem rawLineLengths : Obligations.RawLineLengths := by
  unfold Obligations.RawLineLengths
  refine fun z sel qbuf hsel hq => ⟨length_serialRaw z hsel hq, ?_⟩
  rw [length_ckRaw, extraSample_eq]
  split <;> rfl

theorem ones_zeroFill (b : Bits) : ones (zeroFill b) = ones b := by simp [zeroFill]

/-- Three bursts of 64, 64 and 16 clock patterns, with two ones each (R69, R96). -/
theorem ones_ckRaw (z : Droplet) : ones (ckRaw z) = 288 := by
  have hpat : ones Config.pat = 2 := by decide
  simp only [ckRaw, ones_append, ones_zeros, ones_rep, hpat, Config.burst, Config.burstQ]

/-- A selection phase carries the selection buffer or zeros. -/
theorem ones_firstSelection (z : Droplet) (sel : Bits) : ones (firstSelection z sel) = ones sel * (firstPhase z).toNat := by
  unfold firstSelection
  cases firstPhase z <;> simp

theorem ones_secondSelection (z : Droplet) (sel : Bits) :
    ones (secondSelection z sel) = ones sel * (secondPhase z).toNat := by
  unfold secondSelection
  cases secondPhase z <;> simp

theorem ones_serialRaw (z : Droplet) (sel qbuf : Bits) : ones (serialRaw z sel qbuf) =
    ones sel * ((firstPhase z).toNat + (secondPhase z).toNat) + ones qbuf := by
  simp only [serialRaw, ones_append, ones_zeros, ones_firstSelection, ones_secondSelection, Nat.mul_add, Nat.add_zero]

/-! ## The closed forms -/

theorem firstPhase_iff {z : Droplet} : firstPhase z = true ↔ z = .large ∨ z = .medium := by cases z <;> simp [firstPhase]

theorem secondPhase_iff {z : Droplet} : secondPhase z = true ↔ z = .large ∨ z = .small := by cases z <;> simp [secondPhase]

/-- The clock pattern `0, 1, 1, 0` (30_encoding.md R69). -/
theorem patAt_eq (k : Nat) : patAt k = (k % 4 == 1 || k % 4 == 2) := by
  have hpat : ∀ r < 4, Config.pat.getD r false = (r == 1 || r == 2) := by decide
  exact hpat _ (Nat.mod_lt k (by decide))

/-- Settles O44: the lines are the machine's closed forms, sample by sample, and these are the spec's with the size tests
written out. -/
theorem linesEqualTheirClosedForms : Obligations.LinesEqualTheirClosedForms := by
  unfold Obligations.LinesEqualTheirClosedForms
  refine fun tb s => ⟨?_, ?_, ?_, ?_⟩
  · refine (runLines_sibl tb s).trans (List.map_congr_left fun t _ => ?_)
    simp only [sample, serialLine, firstPhase_iff, secondPhase_iff]
  · refine (runLines_sicl tb s).trans (List.map_congr_left fun t _ => ?_)
    simp only [sample, serialLine, firstPhase_iff, secondPhase_iff]
  · rintro d rfl
    refine (runLines_ck tb s).trans (List.map_congr_left fun t _ => ?_)
    rw [← extraSample_eq]
    simp only [sample, clockLine, patAt_eq]
  · exact (ones_zeroFill _).trans (ones_ckRaw s.size)

/-! ## The finished lines -/

/-- The line of a signal among the six finished ones. -/
def Lines.line (v : Lines) : Signal → Bits
  | .nc => v.nc
  | .ch => v.ch
  | .lat => v.lat
  | .ck => v.ck
  | .sibl => v.sibl
  | .sicl => v.sicl

/-- Every line of a run is the samples of its signal (R106, R110, R111). -/
theorem runLines_line (tb : Tables) (s : State) (g : Signal) :
    (runLines tb s).line g = (List.range 1038).map (sample tb s g) := by
  cases g with
  | nc => exact zeroFill_nil
  | ch => exact zeroFill_nil
  | lat => exact zeroFill_nil
  | ck => exact runLines_ck tb s
  | sibl => exact runLines_sibl tb s
  | sicl => exact runLines_sicl tb s

theorem length_runLines_line (tb : Tables) (s : State) (g : Signal) : ((runLines tb s).line g).length = 1038 := by
  rw [runLines_line, List.length_map, List.length_range]

theorem getD_runLines_line {tb : Tables} {s : State} {t : Nat} (g : Signal) (ht : t < 1038) :
    ((runLines tb s).line g).getD t false = sample tb s g t := by
  rw [runLines_line, getD_map_range _ _ _ ht]

/-- A serial line outside its three phases (R113 (d)). -/
theorem serialLine_of_gap {z : Droplet} {sel qbuf : Nat → Bool} {t : Nat}
    (ht : (256 ≤ t ∧ t ≤ 485) ∨ (742 ≤ t ∧ t ≤ 971) ∨ (1036 ≤ t ∧ t ≤ 1037)) : serialLine z sel qbuf t = false := by
  rw [serialLine, if_neg (by omega), if_neg (by omega), if_neg (by omega)]

theorem ones_sibl {tb : Tables} (h : tb.wf = true) (s : State) : ones (runLines tb s).sibl =
    2 * (selectedNozzles s .k).length * ((firstPhase s.size).toNat + (secondPhase s.size).toNat) +
      ones (qualSeq tb s.qual) := by
  rw [← ones_bufK h]
  exact (ones_zeroFill _).trans (ones_serialRaw ..)

theorem ones_sicl {tb : Tables} (h : tb.wf = true) (s : State) : ones (runLines tb s).sicl =
    2 * ((selectedNozzles s .c).length + (selectedNozzles s .m).length + (selectedNozzles s .y).length) *
      ((firstPhase s.size).toNat + (secondPhase s.size).toNat) + ones (qualSeq tb s.qual) := by
  rw [← ones_bufC h]
  exact (ones_zeroFill _).trans (ones_serialRaw ..)

/-- Settles O45: the ones of the literal phase program, and its gaps in the closed form. -/
theorem lineLengthsAndOnes : Obligations.LineLengthsAndOnes := by
  unfold Obligations.LineLengthsAndOnes
  refine fun tb s => ⟨?_, ?_, fun t ht => ?_⟩
  · have hlen := length_runLines_line tb s
    simp only [List.mem_cons, List.not_mem_nil, or_false]
    rintro l (rfl | rfl | rfl | rfl | rfl | rfl)
    exacts [hlen .nc, hlen .ch, hlen .lat, hlen .ck, hlen .sibl, hlen .sicl]
  · rintro hwf first second hfirst hsecond
    have hfirst' : first = (firstPhase s.size).toNat := by rw [hfirst]; cases s.size <;> rfl
    have hsecond' : second = (secondPhase s.size).toNat := by rw [hsecond]; cases s.size <;> rfl
    rw [hfirst', hsecond']
    exact ⟨ones_sibl hwf s, ones_sicl hwf s⟩
  · have hlt : t < 1038 := by omega
    exact ⟨(getD_runLines_line .sibl hlt).trans (serialLine_of_gap ht),
      (getD_runLines_line .sicl hlt).trans (serialLine_of_gap ht)⟩

/-! ## The words -/

theorem exists_signal_iff {p : Signal → Prop} :
    (∃ g, p g) ↔ p .nc ∨ p .ch ∨ p .lat ∨ p .ck ∨ p .sibl ∨ p .sicl := by
  constructor
  · rintro ⟨_ | _ | _ | _ | _ | _, hg⟩ <;> simp [hg]
  · rintro (h | h | h | h | h | h)
    exacts [⟨_, h⟩, ⟨_, h⟩, ⟨_, h⟩, ⟨_, h⟩, ⟨_, h⟩, ⟨_, h⟩]

/-- The bit of a lane whose offset fits the word. -/
theorem getLsbD_lane_iff {w k : Nat} (b : Bool) (hk : k < w) (j : Nat) :
    (lane w b k).getLsbD j = true ↔ k = j ∧ b = true := by
  rw [getLsbD_lane]
  simp only [Bool.and_eq_true, beq_iff_eq, decide_eq_true_eq]
  constructor
  · rintro ⟨⟨hb, rfl⟩, -⟩
    exact ⟨rfl, hb⟩
  · rintro ⟨rfl, hb⟩
    exact ⟨⟨hb, rfl⟩, hk⟩

/-- A bit of a word is the OR of the samples of the signals at that offset (30_encoding.md R64). -/
theorem getLsbD_wordAt_iff {w : Nat} {tb : Tables} {s : State} (h : s.off.fits w = true) (t j : Nat) :
    (wordAt w tb s t).getLsbD j = true ↔ ∃ g, offsetOf s.off g = j ∧ sample tb s g t = true := by
  have hfit := fits_iff.1 h
  have hlane := fun (g : Signal) => getLsbD_lane_iff (sample tb s g t) (hfit g) j
  rw [exists_signal_iff, ← hlane .nc, ← hlane .ch, ← hlane .lat, ← hlane .ck, ← hlane .sibl, ← hlane .sicl]
  simp only [wordAt, packSample, BitVec.getLsbD_or, Bool.or_eq_true, or_assoc]
  rfl

/-- Settles O48: with the reset offsets the word carries its three data samples in bits 3, 4 and 5. -/
theorem wordBitsAreTheSamples : Obligations.WordBitsAreTheSamples := by
  unfold Obligations.WordBitsAreTheSamples
  refine fun w tb s t hfit => ⟨getLsbD_wordAt_iff hfit t, fun hoff => ?_⟩
  have hvalue : ∀ ck sibl sicl : Bool, (0 ||| (0 ||| (0 ||| ck.toNat <<< 3 ||| sibl.toNat <<< 4 ||| sicl.toNat <<< 5))) ∈
      [0x00, 0x08, 0x10, 0x18, 0x20, 0x28, 0x30, 0x38] := by decide
  rw [wordAt, toNat_packSample hfit, hoff]
  simpa [sample, Config.compatACtlZero] using
    hvalue (sample tb s .ck t) (sample tb s .sibl t) (sample tb s .sicl t)

@[simp] theorem lane_false (w k : Nat) : lane w false k = 0#w := by simp [lane]

/-- The control lines contribute nothing to a word (44_word_packer.md R122). -/
theorem wordAt_eq_data (w : Nat) (tb : Tables) (s : State) (t : Nat) : wordAt w tb s t =
    lane w (sample tb s .ck t) s.off.ck ||| lane w (sample tb s .sibl t) s.off.sibl |||
      lane w (sample tb s .sicl t) s.off.sicl := by
  have hctl : sample tb s .nc t = false ∧ sample tb s .ch t = false ∧ sample tb s .lat t = false := ⟨rfl, rfl, rfl⟩
  obtain ⟨hnc, hch, hlat⟩ := hctl
  simp only [wordAt, packSample, hnc, hch, hlat, lane_false, BitVec.zero_or, BitVec.or_self]

theorem packAt_runLines (w : Nat) {tb : Tables} {s : State} {t : Nat} (ht : t < 1038) :
    packAt w (runLines tb s) s.off t = wordAt w tb s t := by
  have hline := fun g => getD_runLines_line (tb := tb) (s := s) g ht
  rw [wordAt, ← hline .nc, ← hline .ch, ← hline .lat, ← hline .ck, ← hline .sibl, ← hline .sicl]
  rfl

/-- The packer's sequence of a run is its words, and it never raises (R122). -/
theorem pack_runLines (w : Nat) (tb : Tables) (s : State) :
    pack w (runLines tb s) s.off = .ok ((List.range 1038).map (wordAt w tb s)) := by
  have hlen := length_runLines_line tb s
  have hnc : (runLines tb s).nc.length = 1038 := hlen .nc
  rw [pack_of_sameLength w s.off, hnc]
  · exact congrArg _ (List.map_congr_left fun t ht => packAt_runLines w (List.mem_range.1 ht))
  · rw [sameLength_iff, hnc]
    exact ⟨hlen .ch, hlen .lat, hlen .ck, hlen .sibl, hlen .sicl⟩

/-- Settles O49: each line is the samples of its signal, so the packer sees the samples of every index. -/
theorem packOfTheLinesIsTheWords : Obligations.PackOfTheLinesIsTheWords := by
  unfold Obligations.PackOfTheLinesIsTheWords
  exact fun w tb s => ⟨pack_runLines w tb s, wordAt_eq_data w tb s⟩

/-! ## What a word depends on -/

theorem selectedNozzles_congr {s s' : State} (h : sameArguments s s') (ch : Channel) :
    selectedNozzles s' ch = selectedNozzles s ch := by
  obtain ⟨hk, hc, hm, hy, -⟩ := h
  rw [selectedNozzles, selectedNozzles, funext (selected_congr hk hc hm hy ch)]

theorem sample_congr {s s' : State} (h : sameArguments s s') (tb : Tables) (g : Signal) (t : Nat) :
    sample tb s' g t = sample tb s g t := by
  have hsel : ∀ ch i, slotSetBy tb s' ch i = slotSetBy tb s ch i := fun ch i => by
    rw [slotSetBy, slotSetBy, selectedNozzles_congr h]
  have hk : selK tb s' = selK tb s := funext fun i => hsel .k i
  have hc : selC tb s' = selC tb s := funext fun i => by simp only [selC, hsel]
  obtain ⟨-, -, -, -, hsize, hqual, -, -⟩ := h
  cases g <;> simp only [sample, hsize, hqual, hk, hc]

theorem toNat_wordAt_congr {w w' : Nat} {s s' : State} (hw : w' = w) (h : sameArguments s s') (tb : Tables) (t : Nat) :
    (wordAt w' tb s' t).toNat = (wordAt w tb s t).toNat := by
  subst hw
  have hsample := sample_congr h tb
  obtain ⟨-, -, -, -, -, -, -, hoff⟩ := h
  simp only [wordAt, hsample, hoff]

theorem runWords_congr {s s' : State} (hp : s'.params = s.params) (h : sameArguments s s') :
    runWords s' = runWords s := by
  simp only [runWords, toNat_wordAt_congr (congrArg Params.wordW hp) h]

/-- Settles O50: a sample reads the argument registers only. -/
theorem equalArgumentsGiveEqualRuns : Obligations.EqualArgumentsGiveEqualRuns := by
  unfold Obligations.EqualArgumentsGiveEqualRuns
  exact fun s s' => runWords_congr

end Machine

end Sys2Proof

/-! Runs (44_word_packer.md R124, R125; 70_reset_and_hazards.md sections 3 and 4): the words delivered are at every edge
the first `T` of the run's, and the run ends once the sink was ready often enough. -/

namespace Sys2Proof.Machine

/-! ## The word an emit step delivers -/

theorem length_runWords (s : State) : (runWords s).length = 1038 := by simp [runWords, Config.runLength]

theorem getElem_runWords {s : State} (h : s.t.toNat < (runWords s).length) : (runWords s)[s.t.toNat] = offered s := by
  simp only [runWords, List.getElem_map, List.getElem_range]
  rfl

/-- The words still to come are the offered one and those after it. -/
theorem drop_runWords {s : State} (ht : s.t.toNat < 1038) :
    (runWords s).drop s.t.toNat = offered s :: (runWords s).drop (s.t.toNat + 1) := by
  have hlen : s.t.toNat < (runWords s).length := (length_runWords s).symm ▸ ht
  rw [List.drop_eq_getElem_cons hlen, getElem_runWords hlen]

/-- The words delivered so far, and the offered one, are those delivered after the emit step. -/
theorem take_runWords_succ {s : State} (ht : s.t.toNat < 1038) :
    (runWords s).take (s.t.toNat + 1) = (runWords s).take s.t.toNat ++ [offered s] := by
  have hlen : s.t.toNat < (runWords s).length := (length_runWords s).symm ▸ ht
  rw [List.take_succ_eq_append_getElem hlen, getElem_runWords hlen]

theorem sameArguments_emitStep (s : State) : sameArguments s (emitStep s) :=
  ⟨emitStep_nsetK s, emitStep_nsetC s, emitStep_nsetM s, emitStep_nsetY s, emitStep_size s, emitStep_qual s,
    emitStep_strat s, emitStep_off s⟩

theorem runWords_emitStep (s : State) : runWords (emitStep s) = runWords s :=
  runWords_congr (emitStep_params s) (sameArguments_emitStep s)

/-- Settles O52: an emit step delivers the word at `T` and advances `T`; a stall does neither. -/
theorem deliveredWordsArePrefixOfTheRun : Obligations.DeliveredWordsArePrefixOfTheRun := by
  unfold Obligations.DeliveredWordsArePrefixOfTheRun
  intro s s' before hs hrst hsink h
  rcases step_cases h with ⟨hreset, -⟩ | ⟨-, -, -, ht, ⟨-, rfl⟩ | ⟨-, rfl⟩⟩ | ⟨-, hne, -⟩
  · cases hrst.symm.trans hreset
  · refine ⟨?_, sameArguments_emitStep s.pastEdge, runWords_emitStep s.pastEdge, ?_⟩
    · rw [toNat_emitStep_t (s := s.pastEdge) ht, emitStep_sinkWords, pastEdge_sinkWords, hsink, List.append_assoc]
      exact congrArg (before ++ ·) (take_runWords_succ ht).symm
    · by_cases hlast : s.t.toNat = 1037
      · rw [emitStep_of_last (s := s.pastEdge) hlast]
        exact .inr ⟨rfl, rfl, rfl⟩
      · rw [emitStep_of_not_last (s := s.pastEdge) hlast]
        exact .inl hs
  · exact ⟨hsink, ⟨rfl, rfl, rfl, rfl, rfl, rfl, rfl, rfl⟩, rfl, .inl hs⟩
  · exact absurd hs hne

/-! ## Edges at which nothing happens -/

/-- `n` clock edges are past, and nothing else has changed. -/
def State.pastEdges (s : State) (n : Nat) : State := { s with edges := s.edges.drop n }

theorem pastEdges_succ (s : State) (n : Nat) : s.pastEdges (n + 1) = (s.pastEdges n).pastEdge := by
  simp [State.pastEdges, State.pastEdge]

/-- If nothing happens at each of `n` edges, the edges are past and nothing else has changed. -/
theorem runSteps_of_waiting {s : State} {n : Nat} (h : ∀ i < n, step (s.pastEdges i) = .next (s.pastEdges i).pastEdge) :
    runSteps n s = .next (s.pastEdges n) := by
  induction n with
  | zero => rfl
  | succ n ih =>
    rw [runSteps_add (ih fun i hi => h i (by omega)), runSteps_succ_of_next 0 (h n (by omega)), pastEdges_succ]
    rfl

/-- The edge after `n` others is one of the listed ones or the later one. -/
theorem edge_pastEdges (s : State) (n : Nat) : (s.pastEdges n).edge ∈ s.edges ∨ (s.pastEdges n).edge = s.laterEdge := by
  rw [State.edge, State.pastEdges]
  cases hd : s.edges.drop n with
  | nil => exact .inr rfl
  | cons e es => exact .inl (List.mem_of_mem_drop (hd ▸ List.mem_cons_self))

/-- The edge after `i` listed ones, while the list lasts. -/
theorem edge_pastEdges_of_lt {s : State} {i : Nat} (hi : i < s.edges.length) : (s.pastEdges i).edge = s.edges[i] := by
  rw [State.edge, State.pastEdges, List.drop_eq_getElem_cons hi, List.headD_cons]

/-- Settles O55: at every edge the sink stalls (`step_run`), so nothing happens. -/
theorem sinkThatNeverAcceptsHoldsTheRunForEver : Obligations.SinkThatNeverAcceptsHoldsTheRunForEver := by
  unfold Obligations.SinkThatNeverAcceptsHoldsTheRunForEver
  refine fun s hs ha ht hlisted hrst hstall n => runSteps_of_waiting fun i _ => ?_
  have hedge : (s.pastEdges i).edge.rst = false ∧ (s.pastEdges i).edge.wReady = false := by
    rcases edge_pastEdges s i with hmem | hlater
    · exact hlisted _ hmem
    · rw [hlater]
      exact ⟨hrst, hstall⟩
  rw [step_run (s := s.pastEdges i) hedge.1 hs ha ht, hedge.2]
  rfl

/-- In `IDLE` with no word to offer nothing happens, if no reset comes. -/
theorem runSteps_of_idle {s : State} {n : Nat} (hs : s.st = .idle) (hcmds : s.hostCmds = []) (hn : n ≤ s.edges.length)
    (hrst : ∀ e ∈ s.edges.take n, e.rst = false) : runSteps n s = .next (s.pastEdges n) := by
  refine runSteps_of_waiting fun i hi => ?_
  have hedge : (s.pastEdges i).edge.rst = false := by
    rw [edge_pastEdges_of_lt (by omega)]
    exact hrst _ (List.mem_take_iff_getElem.2 ⟨i, by omega, rfl⟩)
  have hst : (s.pastEdges i).st ≠ .run := fun h => nomatch hs.symm.trans h
  have hoffered : (s.pastEdges i).offeredCmd = none := offeredCmd_eq_none_iff.2 (.inr hcmds)
  rw [step_of_not_run hedge hst, hoffered]
  rfl

/-! ## The edges to come -/

/-- The input ports at the next `k` edges, listed or later. -/
def edgesAhead : Nat → State → List Edge
  | 0, _ => []
  | k + 1, s => s.edge :: edgesAhead k s.pastEdge

theorem edgesAhead_congr (k : Nat) : ∀ {s s' : State}, s'.edges = s.edges → s'.laterEdge = s.laterEdge →
    edgesAhead k s' = edgesAhead k s := by
  induction k with
  | zero => exact fun _ _ => rfl
  | succ k ih =>
    intro s s' he hl
    have hedge : s'.edge = s.edge := by rw [State.edge, State.edge, he, hl]
    rw [edgesAhead, edgesAhead, hedge, ih (s := s.pastEdge) (s' := s'.pastEdge) (congrArg List.tail he) hl]

theorem edgesAhead_eq_take (k : Nat) : ∀ {s : State}, k ≤ s.edges.length → edgesAhead k s = s.edges.take k := by
  induction k with
  | zero => exact fun _ => rfl
  | succ k ih =>
    intro s hk
    obtain ⟨e, es, he⟩ := List.exists_cons_of_length_pos (show 0 < s.edges.length by omega)
    have hes : s.pastEdge.edges = es := by rw [pastEdge_edges, he, List.tail_cons]
    have hlen : k ≤ s.pastEdge.edges.length := by
      rw [he, List.length_cons] at hk
      rw [hes]
      omega
    rw [edgesAhead, ih hlen, hes, he, List.take_succ_cons, State.edge, he, List.headD_cons]

theorem edgesAhead_length_add (m : Nat) : ∀ (es : List Edge) {s : State}, s.edges = es →
    edgesAhead (es.length + m) s = es ++ List.replicate m s.laterEdge
  | [], s, hs => by
    rw [List.length_nil, Nat.zero_add, List.nil_append]
    induction m with
    | zero => rfl
    | succ m ih =>
      have hpast : edgesAhead m s.pastEdge = edgesAhead m s := edgesAhead_congr m (by simp [hs]) rfl
      rw [edgesAhead, hpast, ih, List.replicate_succ, State.edge, hs, List.headD_nil]
  | e :: es, s, hs => by
    have hpast := edgesAhead_length_add m es (s := s.pastEdge) (by rw [pastEdge_edges, hs, List.tail_cons])
    rw [List.length_cons, Nat.add_right_comm, edgesAhead, hpast, State.edge, hs, List.headD_cons]
    rfl

/-! ## The end of a run -/

/-- A run in progress, in a state of R33. -/
def Running (s : State) : Prop := s.st = .run ∧ s.strat = .a ∧ s.t.toNat < 1038

/-- The state in which the run of `s` ends, after `n` edges: all its words delivered. -/
def runEnd (n : Nat) (s : State) : State :=
  { s with
    sinkWords := s.sinkWords ++ (runWords s).drop s.t.toNat
    t := 1038, st := .idle, done := true, edges := s.edges.drop n }

theorem runEnd_pastEdge (n : Nat) (s : State) : runEnd n s.pastEdge = runEnd (n + 1) s := by
  simp only [runEnd, pastEdge_edges, List.drop_tail]
  rfl

/-- An emit step before the last word leads to the same end. -/
theorem runEnd_emitStep {n : Nat} {s : State} (ht : s.t.toNat < 1037) : runEnd n (emitStep s) = runEnd n s := by
  have hlast : s.t.toNat ≠ 1037 := by omega
  have hwords := runWords_emitStep s
  have ht' : (emitStep s).t.toNat = s.t.toNat + 1 := toNat_emitStep_t (ht.trans (by decide))
  rw [runEnd, hwords, ht', emitStep_sinkWords, List.append_assoc, List.singleton_append, ← drop_runWords (by omega),
    emitStep_of_not_last hlast]
  rfl

/-- The emit step at the last word leads to the end of the run. -/
theorem emitStep_eq_runEnd {s : State} (ht : s.t.toNat = 1037) : emitStep s = runEnd 0 s := by
  have hdrop : (runWords s).drop (s.t.toNat + 1) = [] := by
    rw [ht]
    exact List.drop_of_length_le (length_runWords s).le
  rw [runEnd, drop_runWords (by omega), hdrop, offered, atLastWord_iff.2 ht, ht, emitStep_of_last ht]
  rfl

theorem running_emitStep {s : State} (h : Running s) (ht : s.t.toNat < 1037) : Running (emitStep s) := by
  obtain ⟨hs, ha, -⟩ := h
  refine ⟨?_, (emitStep_strat s).trans ha, ?_⟩
  · rw [emitStep_of_not_last (by omega)]
    exact hs
  · rw [toNat_emitStep_t (ht.trans (by decide))]
    omega

/-- A run ends at the edge at which the sink has been ready for each of its remaining words, if no reset came till then. -/
theorem run_ends (k : Nat) : ∀ {s : State}, Running s → (∀ e ∈ edgesAhead k s, e.rst = false) →
    1038 - s.t.toNat ≤ ((edgesAhead k s).filter fun e => e.wReady).length →
      ∃ n ≤ k, 1038 - s.t.toNat ≤ n ∧ runSteps n s = .next (runEnd n s) := by
  induction k with
  | zero =>
    rintro s ⟨-, -, ht⟩ - hready
    simp only [edgesAhead, List.filter_nil, List.length_nil] at hready
    omega
  | succ k ih =>
    intro s hrun hrst hready
    obtain ⟨hs, ha, ht⟩ := hrun
    obtain ⟨hrst0, hrst'⟩ := List.forall_mem_cons.1 hrst
    have hstep := step_run hrst0 hs ha ht
    rw [edgesAhead, List.filter_cons] at hready
    cases hw : s.edge.wReady with
    | false =>
      rw [hw] at hready hstep
      obtain ⟨n, hnk, htn, hn⟩ := ih (s := s.pastEdge) ⟨hs, ha, ht⟩ hrst' hready
      exact ⟨n + 1, by omega, by simp only [pastEdge_t] at htn; omega,
        by rw [runSteps_succ_of_next n hstep, ← runEnd_pastEdge]; exact hn⟩
    | true =>
      rw [hw] at hready hstep
      by_cases hlast : s.t.toNat = 1037
      · refine ⟨1, by omega, by omega, ?_⟩
        rw [runSteps_succ_of_next 0 hstep, ← runEnd_pastEdge, ← emitStep_eq_runEnd (s := s.pastEdge) hlast]
        rfl
      · have hlt : s.pastEdge.t.toNat < 1037 := by rw [pastEdge_t]; omega
        have hahead : edgesAhead k (emitStep s.pastEdge) = edgesAhead k s.pastEdge :=
          edgesAhead_congr k (emitStep_edges _) (emitStep_laterEdge _)
        have ht' : (emitStep s.pastEdge).t.toNat = s.t.toNat + 1 := toNat_emitStep_t (s := s.pastEdge) ht
        rw [if_pos rfl, List.length_cons] at hready
        obtain ⟨n, hnk, htn, hn⟩ := ih (running_emitStep (s := s.pastEdge) ⟨hs, ha, ht⟩ hlt) (hahead ▸ hrst')
          (by rw [hahead, ht']; omega)
        refine ⟨n + 1, by omega, by omega, ?_⟩
        rw [runSteps_succ_of_next n hstep, ← runEnd_pastEdge, ← runEnd_emitStep hlt]
        exact hn

/-! ## Runs under the sinks of the spec -/

/-- The words of a run are the packer's, `w_last` with the last only (R125). -/
theorem map_word_runWords (s : State) : (runWords s).map Delivered.word =
    ((List.range 1038).map (wordAt s.params.wordW Config.tables s)).map BitVec.toNat := by
  simp only [runWords, List.map_map, Config.runLength]
  rfl

theorem map_last_runWords (s : State) : (runWords s).map Delivered.last = List.replicate 1037 false ++ [true] := by
  have hbefore : (List.range 1037).map (· == 1037) = List.replicate 1037 false :=
    List.eq_replicate_iff.2 ⟨by simp, by simpa using fun t ht => Nat.ne_of_lt ht⟩
  rw [← hbefore, runWords, List.map_map]
  exact (congrArg (List.map _) List.range_succ).trans List.map_append

/-- Settles O53: with a sink ready at every edge the run ends after exactly as many edges as it has words. -/
theorem runDeliversThePackedSequence : Obligations.RunDeliversThePackedSequence := by
  unfold Obligations.RunDeliversThePackedSequence
  intro s hs ha hlen hedges
  refine ⟨_, runWords s, pack_runLines s.params.wordW Config.tables s, map_word_runWords s, length_runWords s,
    map_last_runWords s, fun s' hstart => ?_⟩
  obtain rfl := Host.Outcome.next.inj ((exec_of_effect hs (.start s)).symm.trans hstart)
  have hahead : edgesAhead 1038 s.startRun = s.edges.take 1038 := edgesAhead_eq_take 1038 (s := s.startRun) hlen
  have hcount : ((s.edges.take 1038).filter fun e => e.wReady).length = 1038 := by
    rw [List.filter_eq_self.2 fun e he => (hedges e he).2, List.length_take_of_le hlen]
  obtain ⟨n, hle, hge, hrun⟩ := run_ends 1038 (s := s.startRun) ⟨rfl, ha, by simp⟩
    (by rw [hahead]; exact fun e he => (hedges e he).1) (by rw [hahead, hcount]; simp)
  obtain rfl : n = 1038 := by
    have ht0 : s.startRun.t.toNat = 0 := rfl
    omega
  exact hrun

/-- Settles O54: the run ends within the `k` edges, and nothing happens at those that are left. -/
theorem runEndsWhenTheSinkKeepsAccepting : Obligations.RunEndsWhenTheSinkKeepsAccepting := by
  unfold Obligations.RunEndsWhenTheSinkKeepsAccepting
  intro s k hs ha ht hcmds hk hrst hready
  have hahead := edgesAhead_eq_take k hk
  obtain ⟨n, hle, -, hrun⟩ := run_ends k (s := s) ⟨hs, ha, by simp [ht]⟩ (hahead ▸ hrst) (by rw [hahead, ht]; exact hready)
  obtain ⟨m, rfl⟩ := Nat.exists_eq_add_of_le hle
  have hrest : runSteps m (runEnd n s) = .next ((runEnd n s).pastEdges m) := by
    refine runSteps_of_idle (s := runEnd n s) rfl hcmds ?_ fun e he => hrst e ?_
    · simp only [runEnd, List.length_drop]
      omega
    · rw [List.take_add]
      exact List.mem_append_right _ he
  rw [runSteps_add hrun, hrest, runEnd, State.pastEdges, List.drop_drop, ht]
  rfl

/-- Settles O56: the sink is ready at the 1038 edges after the listed ones, at the latest. -/
theorem fairSinkEndsTheRun : Obligations.FairSinkEndsTheRun := by
  unfold Obligations.FairSinkEndsTheRun
  intro s hs ha ht hlisted hrst hready
  have hahead := edgesAhead_length_add 1038 s.edges (s := s) rfl
  have hcount : 1038 - s.t.toNat ≤ ((edgesAhead (s.edges.length + 1038) s).filter fun e => e.wReady).length := by
    rw [hahead, List.filter_append, List.filter_replicate_of_pos hready, List.length_append, List.length_replicate]
    omega
  have hnoReset : ∀ e ∈ edgesAhead (s.edges.length + 1038) s, e.rst = false := by
    rw [hahead]
    intro e he
    rcases List.mem_append.1 he with hmem | hlater
    · exact hlisted e hmem
    · rw [List.eq_of_mem_replicate hlater, hrst]
  obtain ⟨n, hle, -, hrun⟩ := run_ends _ ⟨hs, ha, ht⟩ hnoReset hcount
  exact ⟨n, runEnd n s, hle, hrun, rfl, rfl, rfl, rfl, ⟨rfl, rfl, rfl, rfl, rfl, rfl, rfl, rfl⟩, rfl⟩

end Sys2Proof.Machine

/-! Several commands in a row: SELs in any order (45_commands.md R135) and the pseudo-command GEN (R146, 30_encoding.md R67). -/

namespace Sys2Proof.Machine

/-! ## Delivering commands one by one -/

/-- Delivering a command in `IDLE` whose operand is in order is having its effect and delivering the rest. -/
theorem deliver_cons_of_effect {i : Instr} {s t : State} (hi : i.wf = true) (hs : s.st = .idle) (h : Effect i s t)
    (is : List Instr) : deliver (i :: is) s = deliver is t :=
  deliver_cons is (decode_encode hi) (by simp [hs]) (exec_of_effect hs h)

/-- `ERROR` discards every command that is delivered, ACK apart. -/
theorem deliver_of_error {s : State} (hs : s.st = .error) {is : List Instr} (h : ∀ i ∈ is, i.wf = true ∧ i ≠ .ack) :
    deliver is s = .next s := by
  induction is with
  | nil => rfl
  | cons i is ih =>
    obtain ⟨⟨hwf, hack⟩, hrest⟩ := List.forall_mem_cons.1 h
    have hexec : exec i s = .next s := (exec_error i hs).trans (by rw [if_neg hack])
    rw [deliver_cons is (decode_encode hwf) (by simp [hs]) hexec, ih hrest]

/-! ## Delivering SELs -/

/-- The SEL of a channel and a nozzle number. -/
def selOf (p : Channel × BitVec 8) : Instr := .sel p.1 p.2

/-- All nozzles of a list enter their sets. -/
def State.selectAll (s : State) (l : List (Channel × BitVec 8)) : State :=
  l.foldl (fun s p => s.select p.1 p.2.toNat) s

/-- Valid SELs are executed one after the other. -/
theorem deliver_sels {l : List (Channel × BitVec 8)} (rest : List Instr) :
    ∀ {s : State}, s.st = .idle → (∀ p ∈ l, nozzleValid p.1 p.2 = true) →
      deliver (l.map selOf ++ rest) s = deliver rest (s.selectAll l) := by
  induction l with
  | nil => exact fun _ _ => rfl
  | cons p l ih =>
    intro s hs hvalid
    obtain ⟨hp, hl⟩ := List.forall_mem_cons.1 hvalid
    obtain ⟨h1, h2⟩ := nozzleValid_iff.1 hp
    rw [List.map_cons, List.cons_append, selOf, deliver_cons_of_effect rfl hs (.sel s p.1 p.2 h1 h2)]
    exact ih ((select_st s p.1 _).trans hs) hl

/-- With an invalid SEL among them the SELs end in `ERROR`, where the rest is discarded. -/
theorem deliver_sels_of_invalid {l : List (Channel × BitVec 8)} {rest : List Instr}
    (hrest : ∀ i ∈ rest, i.wf = true ∧ i ≠ .ack) :
    ∀ {s : State}, s.st = .idle → (∃ p ∈ l, nozzleValid p.1 p.2 = false) →
      ∃ s', deliver (l.map selOf ++ rest) s = .next s' ∧ s'.st = .error ∧ s'.err = .valNozzle ∧
        s'.sinkWords = s.sinkWords := by
  induction l with
  | nil => rintro s - ⟨p, hp, -⟩; cases hp
  | cons p l ih =>
    intro s hs hinvalid
    rw [List.map_cons, List.cons_append, selOf]
    cases hp : nozzleValid p.1 p.2 with
    | true =>
      obtain ⟨h1, h2⟩ := nozzleValid_iff.1 hp
      have hl : ∃ q ∈ l, nozzleValid q.1 q.2 = false := by
        obtain ⟨q, hq, hqf⟩ := hinvalid
        rcases List.mem_cons.1 hq with rfl | hmem
        · cases hp.symm.trans hqf
        · exact ⟨q, hmem, hqf⟩
      rw [deliver_cons_of_effect rfl hs (.sel s p.1 p.2 h1 h2)]
      obtain ⟨s', hnext, hst, herr, hsink⟩ := ih ((select_st s p.1 _).trans hs) hl
      exact ⟨s', hnext, hst, herr, hsink.trans (select_sinkWords s p.1 _)⟩
    | false =>
      have hexec := exec_of_operandError (i := .sel p.1 p.2) (e := .valNozzle) hs (by simp [operandError, hp])
      refine ⟨raise .valNozzle (encode (.sel p.1 p.2)) s, ?_, rfl, rfl, rfl⟩
      rw [deliver_cons _ (decode_encode rfl) (by simp [hs]) hexec]
      refine deliver_of_error rfl fun i hi => ?_
      rcases List.mem_append.1 hi with hsel | hmem
      · obtain ⟨q, -, rfl⟩ := List.mem_map.1 hsel
        exact ⟨rfl, nofun⟩
      · exact hrest i hmem

/-! ## Selecting a list of nozzles -/

theorem selectAll_perm {l l' : List (Channel × BitVec 8)} (h : l.Perm l') (s : State) : s.selectAll l = s.selectAll l' :=
  h.foldl_eq' (fun p _ q _ t => select_comm t p.1 q.1 _ _) s

/-- What `select` leaves, `selectAll` leaves. -/
theorem selectAll_frame {α : Type} {f : State → α} (hf : ∀ s ch n, f (s.select ch n) = f s) (s : State)
    (l : List (Channel × BitVec 8)) : f (s.selectAll l) = f s := by
  induction l generalizing s with
  | nil => rfl
  | cons p l ih => exact (ih _).trans (hf s p.1 _)

/-- After `selectAll` the nozzles of the list are selected, and those that were. -/
theorem selected_selectAll {l : List (Channel × BitVec 8)} (ch : Channel) (n : Nat) :
    ∀ {s : State}, (∀ p ∈ l, nozzleValid p.1 p.2 = true) →
      ((s.selectAll l).selected ch n = true ↔ s.selected ch n = true ∨ ∃ v, (ch, v) ∈ l ∧ n = v.toNat) := by
  induction l with
  | nil => intro s _; simp [State.selectAll]
  | cons p l ih =>
    intro s hvalid
    obtain ⟨hp, hl⟩ := List.forall_mem_cons.1 hvalid
    obtain ⟨h1, h2⟩ := nozzleValid_iff.1 hp
    refine (ih (s := s.select p.1 p.2.toNat) hl).trans ?_
    rw [selected_select s p.1 ch _ n h1 h2, Bool.or_eq_true, Bool.and_eq_true, beq_iff_eq, beq_iff_eq, or_assoc]
    refine or_congr_right ⟨?_, ?_⟩
    · rintro (⟨rfl, hn⟩ | ⟨v, hv, hn⟩)
      · exact ⟨p.2, List.mem_cons_self, hn⟩
      · exact ⟨v, List.mem_cons_of_mem p hv, hn⟩
    · rintro ⟨v, hv, hn⟩
      rcases List.mem_cons.1 hv with rfl | hmem
      · exact .inl ⟨rfl, hn⟩
      · exact .inr ⟨v, hmem, hn⟩

/-- A command that takes a nozzle out of its set is CLR, which empties all sets. -/
theorem exec_keeps_selected {i : Instr} {s s' : State} {ch : Channel} {n : Nat} (h : exec i s = .next s')
    (hsel : s.selected ch n = true) :
    s'.selected ch n = true ∨ (i = .clr ∧ ∀ ch' m, s'.selected ch' m = false) := by
  by_cases hs : s.st = .run
  · obtain rfl := Host.Outcome.next.inj ((exec_run i hs).symm.trans h)
    exact .inl hsel
  · rcases exec_cases hs h with ⟨-, e, -, rfl⟩ | ⟨-, -, heff⟩ | ⟨-, -, rfl⟩ | ⟨-, -, rfl⟩
    · exact .inl hsel
    · refine or_iff_not_imp_left.2 fun hout => ?_
      rcases heff.selected ch n (by rwa [hsel]) with ⟨rfl, -⟩ | ⟨v, -, -, hin⟩
      · cases heff
        exact ⟨rfl, selected_clearSets s⟩
      · exact absurd hin hout
    · exact .inl hsel
    · exact .inl hsel

/-- Settles O20: a set holds a selected nozzle already; SELs commute; and of the effects only CLR's removes. -/
theorem selIsIdempotentAndOrderFree : Obligations.SelIsIdempotentAndOrderFree := by
  unfold Obligations.SelIsIdempotentAndOrderFree
  refine ⟨fun s ch n hs hsel => ?_, fun s l l' hs hvalid hperm => ?_, fun i s s' ch n => exec_keeps_selected⟩
  · obtain ⟨h1, h2⟩ := selected_bounds hsel
    rw [exec_of_effect hs (.sel s ch n h1 h2), select_of_selected hsel]
  · have hdeliver : ∀ l : List (Channel × BitVec 8), (∀ p ∈ l, nozzleValid p.1 p.2 = true) →
        deliver (l.map selOf) s = .next (s.selectAll l) := fun l hl => by
      have := deliver_sels [] hs hl
      rwa [List.append_nil, deliver_nil] at this
    refine ⟨s.selectAll l, hdeliver l hvalid, ?_⟩
    rw [selectAll_perm hperm]
    exact hdeliver l' fun p hp => hvalid p (hperm.mem_iff.2 hp)

/-! ## GEN -/

/-- The operands of the SELs of a GEN, in its order. -/
def genSels (set : Channel → List Nat) : List (Channel × BitVec 8) :=
  [Channel.k, .c, .m, .y].flatMap fun ch =>
    ((List.range 256).filter fun n => (set ch).contains n).map fun n => (ch, BitVec.ofNat 8 n)

/-- The SELs of a GEN are those of the named nozzles that 8 bits can carry (log 22). -/
theorem mem_genSels {set : Channel → List Nat} {ch : Channel} {v : BitVec 8} :
    (ch, v) ∈ genSels set ↔ v.toNat ∈ set ch := by
  have hch : ch ∈ [Channel.k, .c, .m, .y] := by cases ch <;> simp
  simp only [genSels, List.mem_flatMap, List.mem_map, List.mem_filter, List.mem_range, List.contains_iff_mem,
    Prod.mk.injEq]
  constructor
  · rintro ⟨ch', -, n, ⟨hlt, hn⟩, rfl, rfl⟩
    rwa [BitVec.toNat_ofNat, Nat.mod_eq_of_lt hlt]
  · exact fun hv => ⟨ch, hch, v.toNat, ⟨v.isLt, hv⟩, rfl, by simp⟩

theorem gen_eq (q : BitVec 3) (z : BitVec 2) (set : Channel → List Nat) :
    gen q z (set .k) (set .c) (set .m) (set .y) =
      .clr :: ((genSels set).map selOf ++ [.qual q, .size z, .strat .a, .start]) := by
  simp [gen, genSels, selSet, List.map_map, Function.comp_def, selOf]

/-- The end of a GEN: the other arguments are written and the run begins. -/
theorem deliver_start_tail {s : State} (hs : s.st = .idle) (q : Quality) (z : Droplet) :
    deliver [.qual q.code, .size z.code, .strat .a, .start] s =
      .next (State.startRun { s with qual := q, size := z, strat := .a }) := by
  rw [deliver_cons_of_effect rfl hs (.qual s q), deliver_cons_of_effect rfl (by exact hs) (.size _ z),
    deliver_cons_of_effect rfl (by exact hs) (.strat _), deliver_cons_of_effect rfl (by exact hs) (.start _), deliver_nil]

/-- Settles O57: CLR empties the sets, the SELs fill them or one of them raises, and in `ERROR` the rest is discarded. -/
theorem genStartsExactlyTheNamedRun : Obligations.GenStartsExactlyTheNamedRun := by
  unfold Obligations.GenStartsExactlyTheNamedRun
  intro s q z set hs
  rw [gen_eq, deliver_cons_of_effect rfl hs (.clr s)]
  have hclr : s.clearSets.st = .idle := hs
  refine ⟨fun hnamed => ?_, fun ⟨ch, n, hn, hlt, hout⟩ => ?_⟩
  · have hvalid : ∀ p ∈ genSels set, nozzleValid p.1 p.2 = true := fun p hp =>
      nozzleValid_iff.2 (hnamed p.1 _ (mem_genSels.1 hp))
    have hframe := fun {α : Type} {f : State → α} (hf : ∀ s ch n, f (s.select ch n) = f s) =>
      selectAll_frame hf s.clearSets (genSels set)
    rw [deliver_sels _ hclr hvalid, deliver_start_tail ((hframe select_st).trans hclr)]
    refine ⟨_, rfl, rfl, rfl, rfl, rfl, rfl, rfl, hframe select_off, fun ch n => ?_, hframe select_err,
      hframe select_sinkWords, hframe select_hostCmds⟩
    refine (selected_selectAll ch n hvalid).trans ?_
    simp only [selected_clearSets, Bool.false_eq_true, false_or, mem_genSels]
    constructor
    · rintro ⟨v, hv, rfl⟩
      exact hv
    · intro hn
      have hmax : n ≤ 90 := (hnamed ch n hn).2.trans (by cases ch <;> decide)
      have hval : (BitVec.ofNat 8 n).toNat = n := Nat.mod_eq_of_lt (by omega)
      exact ⟨BitVec.ofNat 8 n, by rwa [hval], hval.symm⟩
  · have hval : (BitVec.ofNat 8 n).toNat = n := Nat.mod_eq_of_lt (by omega)
    refine deliver_sels_of_invalid ?_ hclr ⟨(ch, BitVec.ofNat 8 n), mem_genSels.2 (by rwa [hval]), ?_⟩
    · simp [Instr.wf]
    · refine Bool.eq_false_iff.2 fun hv => hout ?_
      have hbounds := nozzleValid_iff.1 hv
      rwa [hval] at hbounds

end Sys2Proof.Machine
